-- ==== Sys2Proof/Word.lean ====
section
/-! DEFINITION. The widths of the LSB bit-packer (spec/00_scope.md R6, R8, R9): bytes, 32-bit words, the
lane file, the lane group and the window offset.  Bit 0 is the least significant bit everywhere (R8), which is
`BitVec`'s own numbering. -/

namespace Sys2Proof

/-- One carrier byte, the contents of one lane (R6 `LANE_W` = 8). -/
abbrev Byte := BitVec 8

/-- A value of the 32-bit host port (R6 `BUS_W`), of VALUE (R6 `VALUE_W`) and of CMD (R70). -/
abbrev Word := BitVec 32

/-- The carrier lane file `L[0..31]` (R6 `N_LANES` = 32, R21). -/
abbrev Lanes := Vector Byte 32

/-- A lane group `G`, 0 to 3: lanes `8G .. 8G+7` (R6 `N_GROUPS` = 4, R73). -/
abbrev LaneGroup := Fin 4

/-- An offset into the register window, `0 <= off < 64` (R42 `WINDOW_BYTES` = 64): the block sees no other. -/
abbrev Offset := Fin 64

end Sys2Proof
end

