-- ==== Sys2Proof/Syntax.lean ====
section
/-! DEFINITION. The commands of LSBPK-1 (spec/30_encoding.md R71), one constructor per row of
spec/opcode_table.json, and the two causes for which a command word is discarded (spec/60_exceptions.md R145). -/

namespace Sys2Proof

/-- The five commands (R71).  The only operand a command word carries is the lane group of the two byte
commands (R73): the value is always VALUE, the integer carrier is always all 32 lanes. -/
inductive Instr where
  /-- NOP (R130). -/
  | nop
  /-- PACK_BYTE G (R92). -/
  | packByte (g : LaneGroup)
  /-- UNPACK_BYTE G (R95). -/
  | unpackByte (g : LaneGroup)
  /-- PACK_INT (R112). -/
  | packInt
  /-- UNPACK_INT (R115). -/
  | unpackInt
  deriving DecidableEq, Repr

/-- Why a command word is discarded (R74, R145 codes 1 and 2). -/
inductive CmdErrorCause where
  /-- ILLEGAL_OP: OP is 5, 6 or 7. -/
  | illegalOp
  /-- RESERVED_FIELD: a legal OP with a reserved bit set, or with GRP not 0 where it must be. -/
  | reservedField
  deriving DecidableEq, Repr

/-- The row of spec/opcode_table.json an instruction belongs to, by its mnemonic. -/
def Instr.mnemonic : Instr → String
  | .nop => "NOP"
  | .packByte _ => "PACK_BYTE"
  | .unpackByte _ => "UNPACK_BYTE"
  | .packInt => "PACK_INT"
  | .unpackInt => "UNPACK_INT"

end Sys2Proof
end

