-- ==== Sys2Proof/WellFormed.lean ====
section
/-! DEFINITION. Which command words are well formed (spec/30_encoding.md R72).  A term of `Instr` cannot be ill
formed: its one operand is a `LaneGroup`, whose type is exactly the range 0..3 the spec gives.  What can be ill formed
is a command WORD, and the check below is the spec's own predicate, written apart from the decoder.  The check of
a host access (R44) is `Machine.legalAccess`, in Machine/Ops.lean. -/

namespace Sys2Proof

/-- `legal_cmd(w)` of R72: OP at most 4, bit 3 clear, bits 31:6 clear, and GRP 0 unless OP is 1 or 2. -/
def legalCmd (w : Word) : Bool :=
  (w.extractLsb' 0 3).toNat ≤ 4
    && w.extractLsb' 3 1 == 0#1
    && w.extractLsb' 6 26 == 0#26
    && ((w.extractLsb' 0 3).toNat == 1 || (w.extractLsb' 0 3).toNat == 2 || w.extractLsb' 4 2 == 0#2)

end Sys2Proof
end

