-- ==== Sys2Proof/Decode.lean ====
section
/-! DEFINITION. Command words (spec/30_encoding.md R70 to R78): the fields, the decoder, total over all 2^32
words and rejecting by name, the encoder, and the source's opcode table as masks and patterns. -/

namespace Sys2Proof

/-- OP, bits 2:0 (R70). -/
def opField (w : Word) : BitVec 3 := w.extractLsb' 0 3

/-- RSV3, bit 3, reserved, must be 0 (R70). -/
def rsv3Field (w : Word) : BitVec 1 := w.extractLsb' 3 1

/-- GRP, bits 5:4 (R70). -/
def grpField (w : Word) : BitVec 2 := w.extractLsb' 4 2

/-- RSV, bits 31:6, reserved, must be 0 (R70). -/
def rsvField (w : Word) : BitVec 26 := w.extractLsb' 6 26

/-- `G = zext(w[5:4])` (R73). -/
def groupOf (w : Word) : LaneGroup := ⟨(grpField w).toNat, (grpField w).isLt⟩

/-- What the decoder answers: the command, or the one cause for which the word is discarded (R75, R78). -/
inductive Decoded where
  /-- The word is legal and selects this command. -/
  | command (i : Instr)
  /-- The word is not legal, and this is its cause. -/
  | discarded (cause : CmdErrorCause)
  deriving DecidableEq, Repr

/-- A command that takes a lane group: only the reserved bits must be 0 (R75, OP 1 and 2). -/
def decodeGroupCmd (w : Word) (i : LaneGroup → Instr) : Decoded :=
  if rsv3Field w ≠ 0 ∨ rsvField w ≠ 0 then .discarded .reservedField else .command (i (groupOf w))

/-- A command without a lane group: the reserved bits and GRP must be 0 (R75, OP 0, 3 and 4). -/
def decodePlainCmd (w : Word) (i : Instr) : Decoded :=
  if rsv3Field w ≠ 0 ∨ rsvField w ≠ 0 ∨ grpField w ≠ 0 then .discarded .reservedField else .command i

/-- The decode half of `Execute(w)` (R75).  OP 5, 6 and 7 are ILLEGAL_OP whatever the other bits hold (R74 step 1);
only then are the reserved bits looked at. -/
def decode (w : Word) : Decoded :=
  match (opField w).toNat with
  | 0 => decodePlainCmd w .nop
  | 1 => decodeGroupCmd w .packByte
  | 2 => decodeGroupCmd w .unpackByte
  | 3 => decodePlainCmd w .packInt
  | 4 => decodePlainCmd w .unpackInt
  | _ => .discarded .illegalOp

/-- The OP value of a command (R71). -/
def Instr.opBits : Instr → BitVec 3
  | .nop => 0
  | .packByte _ => 1
  | .unpackByte _ => 2
  | .packInt => 3
  | .unpackInt => 4

/-- The GRP value of a command (R71): the lane group of a byte command, 0 otherwise. -/
def Instr.grpBits : Instr → BitVec 2
  | .packByte g => BitVec.ofFin g
  | .unpackByte g => BitVec.ofFin g
  | .nop => 0
  | .packInt => 0
  | .unpackInt => 0

/-- The command word (R70's bit picture): 26 zeros, GRP, a zero, OP. -/
def encode (i : Instr) : Word := 0#26 ++ i.grpBits ++ 0#1 ++ i.opBits

/-- A row of the opcode table: a word belongs to it when `(w & mask) = pattern` (R78). -/
structure OpcodeRow where
  mnemonic : String
  mask : Word
  pattern : Word
  deriving DecidableEq, Repr

/-- R78: a row matches when `(w & mask) = match`. -/
def OpcodeRow.accepts (r : OpcodeRow) (w : Word) : Bool := w &&& r.mask == r.pattern

/-- spec/opcode_table.json, row by row. -/
def opcodeTable : List OpcodeRow :=
  [⟨"NOP", 0xFFFFFFFF, 0x00000000⟩, ⟨"PACK_BYTE", 0xFFFFFFCF, 0x00000001⟩, ⟨"UNPACK_BYTE", 0xFFFFFFCF, 0x00000002⟩,
   ⟨"PACK_INT", 0xFFFFFFFF, 0x00000003⟩, ⟨"UNPACK_INT", 0xFFFFFFFF, 0x00000004⟩]

/-- The legal command words, all of them, in R71's order. -/
def legalWords : List Word :=
  [0x00000000, 0x00000001, 0x00000011, 0x00000021, 0x00000031, 0x00000002, 0x00000012, 0x00000022, 0x00000032,
   0x00000003, 0x00000004]

/-- The command a decoding selects, if it selects one. -/
def Decoded.command? : Decoded → Option Instr
  | .command i => some i
  | .discarded _ => none

/-- The instruction the decoder reads from a word of `nbits` bits, numbered as spec/opcode_table.json numbers them.
A command is exactly one 32-bit word (R76), so bits above `nbits` are 0 and a longer form does not exist. -/
def decodeTableWord (nbits w : Nat) : Option Instr :=
  if nbits ≤ 32 then (decode (BitVec.ofNat 32 (w % 2 ^ nbits))).command? else none

end Sys2Proof
end

