-- ==== Sys2Proof/Machine/Flags.lean ====
section
/-! DEFINITION. The block's only flags, STATUS.ERR and STATUS.CAUSE (spec/10_state.md R24 to R26, R29;
spec/60_exceptions.md R144, R145). -/

namespace Sys2Proof.Machine

/-- The cause codes of R145. -/
def causeCode : CmdErrorCause → BitVec 4
  | .illegalOp => 1
  | .reservedField => 2

/-- STATUS as a read returns it: `zext_32(CAUSE ++ 0b000 ++ ERR)` (R24, R45). -/
def statusWord (err : BitVec 1) (cause : BitVec 4) : Word :=
  (cause ++ 0b000#3 ++ err).setWidth 32

/-- A STATUS write clears the error exactly when its bit 0 is 1 (R26). -/
def clearsError (v : Word) : Bool := v.getLsbD 0

/-- CAUSE after `raise CmdError(new)`: the first error since the last clear wins (R144). -/
def causeAfter (err : BitVec 1) (cause : BitVec 4) (new : CmdErrorCause) : BitVec 4 :=
  if err = 0 then causeCode new else cause

end Sys2Proof.Machine
end

