-- ==== Sys2Proof/Config.lean ====
section
/-! DEFINITION. What the build and the platform fix (spec/00_scope.md R6, R7; spec/10_state.md R33 calls the
two constants configuration, not state). -/

namespace Sys2Proof

/-- The two legal values of the build parameter `UNPACK_BYTE_ORDER` (R6, R11; spec/90_conflicts.md C1). -/
inductive BitOrder where
  /-- Lane `base + i` carries bit `W-1-i`: this hardware's value. -/
  | msbFirst
  /-- Lane `base + i` carries bit `i`: the source's sentence about the original unpackByte. -/
  | lsbFirst
  deriving DecidableEq, Repr

/-- `UNPACK_BYTE_ORDER` of this hardware (R6, D1, C1).  The operations that depend on it take the order as an
argument, so that the other build can be spoken of as well (log entry 6). -/
def Config.unpackByteOrder : BitOrder := .msbFirst

/-- `P_BASE`, the window's host address, is an OPEN platform parameter (R6, R42, D21): every operation that
needs it takes it as an argument, and claims quantify over it.  R42's one constraint: a multiple of 64. -/
def Config.legalPBase (pBase : Nat) : Bool := pBase % 64 == 0

end Sys2Proof
end

