-- ==== Sys2Proof/Machine/Operands.lean ====
section
/-! DEFINITION. The datapath: bytes and integers to and from the least significant bits of carrier bytes
(spec/40_byte_ops.md R90, R91; spec/41_int_ops.md R110, R111), and the lanes of a group and of a LANE word
(spec/30_encoding.md R73; spec/20_memory.md R47). -/

namespace Sys2Proof.Machine

/-- Bit 0 of a carrier byte: the one payload bit it holds (R8). -/
def payloadBit (x : Byte) : Bool := x.getLsbD 0

/-- `(x & 0xFE) | zext_8(b)`: LSB substitution in one carrier byte (R90, R110). -/
def substituteLsb (x : Byte) (b : Bool) : Byte := (x &&& 0xFE#8) ||| (BitVec.ofBool b).setWidth 8

/-- Most-significant-bit-first substitution over `w` carrier bytes: byte `i` gets bit `w-1-i` of `v` (R11, R90, R110). -/
def packBits {w : Nat} (v : BitVec w) (carrier : Vector Byte w) : Vector Byte w :=
  Vector.ofFn fun i => substituteLsb carrier[i] (v.getLsbD (w - 1 - i))

/-- The bits of `w` carrier bytes: byte `i` gives bit `w-1-i` most significant bit first, bit `i` least significant
bit first (R11, R91, R111). -/
def unpackBits {w : Nat} (order : BitOrder) (carrier : Vector Byte w) : BitVec w :=
  match order with
  | .msbFirst => BitVec.ofFnLE fun j => payloadBit carrier[j.rev]
  | .lsbFirst => BitVec.ofFnLE fun j => payloadBit carrier[j]

/-- `pack8(b, c)` (R90). -/
def pack8 (b : Byte) (carrier : Vector Byte 8) : Vector Byte 8 := packBits b carrier

/-- `unpack8(c)` under a value of UNPACK_BYTE_ORDER (R91). -/
def unpack8 (order : BitOrder) (carrier : Vector Byte 8) : Byte := unpackBits order carrier

/-- `pack32(v, c)` (R110). -/
def pack32 (v : Word) (carrier : Vector Byte 32) : Vector Byte 32 := packBits v carrier

/-- `unpack32(c)`: most significant bit first whatever UNPACK_BYTE_ORDER is (R7, R111). -/
def unpack32 (carrier : Vector Byte 32) : Word := unpackBits .msbFirst carrier

/-- `rev8(b)[i] = b[7-i]` (R96). -/
def rev8 (b : Byte) : Byte := BitVec.ofFnLE fun i : Fin 8 => b.getLsbD (7 - i)

/-- The lanes of group `G`: `carrier[i]` is `L[8G+i]` (R73). -/
def groupLanes (g : LaneGroup) (lanes : Lanes) : Vector Byte 8 :=
  Vector.ofFn fun i : Fin 8 => lanes[8 * g.val + i.val]

/-- The lane file with the lanes of group `G` replaced, the others kept (R92). -/
def withGroupLanes (g : LaneGroup) (carrier : Vector Byte 8) (lanes : Lanes) : Lanes :=
  Vector.ofFn fun j : Fin 32 =>
    if j.val / 8 = g.val then carrier[j.val % 8]'(Nat.mod_lt _ (by decide)) else lanes[j]

/-- `L[4k+3] ++ L[4k+2] ++ L[4k+1] ++ L[4k]`: LANEk as a word, little-endian (R45, R47). -/
def laneWordOf (k : Fin 8) (lanes : Lanes) : Word :=
  lanes[4 * k.val + 3] ++ lanes[4 * k.val + 2] ++ lanes[4 * k.val + 1] ++ lanes[4 * k.val]

/-- The lane file after a write of `v` to LANEk: lane `4k+j` takes `v[8j+7:8j]` (R46, R47). -/
def withLaneWord (k : Fin 8) (v : Word) (lanes : Lanes) : Lanes :=
  Vector.ofFn fun i : Fin 32 =>
    if i.val / 4 = k.val then v.extractLsb' (8 * (i.val % 4)) 8 else lanes[i]

end Sys2Proof.Machine
end

