-- ==== Sys2Proof/Machine/State.lean ====
section
/-! DEFINITION. The state of the block (spec/10_state.md R33), what the host can do to it and what it gets back
(spec/20_memory.md R60), the reasons a step can stop, and the state after reset (R32). -/

namespace Sys2Proof.Machine

/-- The direction of a host access (R44). -/
inductive Dir where
  | read
  | write
  deriving DecidableEq, Repr

/-- The registers of the window (R41). -/
inductive Reg where
  /-- CMD, offset 0x00. -/
  | cmd
  /-- STATUS, offset 0x04. -/
  | status
  /-- VALUE, offset 0x08. -/
  | value
  /-- ID, offset 0x0C. -/
  | id
  /-- CFG, offset 0x10. -/
  | cfg
  /-- The reserved offsets 0x14, 0x18 and 0x1C. -/
  | reserved (j : Fin 3)
  /-- LANEk, offset 0x20 + 4k. -/
  | lane (k : Fin 8)
  deriving DecidableEq, Repr

/-- Everything that can happen at the block from outside (R40, R60, R170): a host read, a host write, the reset
input.  `off` is the offset the block sees (R42), `n` the number of bytes of the access (R9, R44).  A write's data
is carried in 32 bits; only an access of 4 bytes uses it (log entry 10). -/
inductive HostEvent where
  /-- `MemRead(off, n)`. -/
  | read (off : Offset) (n : Nat)
  /-- `MemWrite(off, n, v)`. -/
  | write (off : Offset) (n : Nat) (v : Word)
  /-- The reset signal, taken between two host accesses (R170). -/
  | reset
  deriving DecidableEq, Repr

/-- What a served access gives the host back (R60): a read its 32-bit data, a write its completion. -/
inductive Reply where
  /-- The data of a read. -/
  | data (v : Word)
  /-- The completion of a write. -/
  | done
  deriving DecidableEq, Repr

/-- Why a run faults. -/
inductive Fault where
  /-- `raise BusError(off, n, read|write)` (R44, R141, R142): an access whose width is not 4 bytes (BUS_WIDTH) or
  whose offset is not a multiple of 4 (BUS_ALIGN).  Raised by `serve` for the access at the head of the host's
  sequence, before any register changes.  Safe: R142 tells a model to treat it as a fault of the run. -/
  | busError (off : Offset) (n : Nat) (dir : Dir)
  deriving DecidableEq, Repr

/-- Why a step is refused. -/
inductive Refusal where
  /-- Raised only by an arm of `exec` whose instruction has no meaning yet; no arm is left so.  Safe. -/
  | notModelled (mnemonic : String)
  deriving DecidableEq, Repr

/-- R33: the block's entire architectural state is `lanes`, `value`, `err` and `cause`.  `requests` and `replies` are
the MODEL's own fields, the two directions of the host port: what the host (or several masters, in the order the
interconnect delivers them) will present, oldest first, and what it has been given back, oldest first
(log entries 1 and 2). -/
structure State where
  /-- The carrier lane file `L[0..31]` (R21). -/
  lanes : Lanes
  /-- The VALUE register `V` (R22). -/
  value : Word
  /-- STATUS.ERR (R24). -/
  err : BitVec 1
  /-- STATUS.CAUSE (R24, R25). -/
  cause : BitVec 4
  /-- The host events still to come, in the order they arrive at the port (R52). -/
  requests : List HostEvent
  /-- The answers given so far, oldest first (R60). -/
  replies : List Reply
  deriving DecidableEq, Repr

/-- The state right after reset (R32, R170), with nothing presented by the host and nothing answered. -/
def State.reset : State where
  lanes := Vector.replicate 32 0x00#8
  value := 0x00000000#32
  err := 0#1
  cause := 0#4
  requests := []
  replies := []

end Sys2Proof.Machine
end

