-- ==== Sys2Proof/Machine/Ops.lean ====
section
/-! DEFINITION. The named operations over the block's state: the commands' reads and writes of lanes and VALUE, the
recording of a discarded command (this block's whole exception mechanism, spec/60_exceptions.md R140, R144, R148) and
its acknowledgement (R149), reset (spec/70_reset_and_hazards.md R170), and the register window
(spec/20_memory.md R41 to R47). -/

namespace Sys2Proof.Machine

/-- `V <- v` (R22). -/
def State.setValue (s : State) (v : Word) : State := { s with value := v }

/-- The whole lane file replaced (R112). -/
def State.setLanes (s : State) (lanes : Lanes) : State := { s with lanes := lanes }

/-- The lanes of group `G` replaced (R92). -/
def State.setGroup (s : State) (g : LaneGroup) (carrier : Vector Byte 8) : State :=
  s.setLanes (withGroupLanes g carrier s.lanes)

/-- ERR and CAUSE written together (R26, R144). -/
def State.setStatus (s : State) (err : BitVec 1) (cause : BitVec 4) : State :=
  { s with err := err, cause := cause }

/-- `raise CmdError(cause)` (R144): the command is discarded and, if ERR was 0, recorded.  L and V are not changed,
nothing is saved and control goes nowhere (R148). -/
def State.cmdError (s : State) (new : CmdErrorCause) : State :=
  s.setStatus 1 (causeAfter s.err s.cause new)

/-- A host write of `v` to STATUS (R26): bit 0 = 1 acknowledges the error, anything else changes nothing. -/
def State.writeStatus (s : State) (v : Word) : State :=
  if clearsError v then s.setStatus 0 0 else s

/-- `Reset` (R170): every piece of the block's state at its value of R32.  The host's own sequence is not the
block's state and is kept. -/
def State.resetBlock (s : State) : State :=
  { s with lanes := Vector.replicate 32 0x00#8, value := 0x00000000#32, err := 0#1, cause := 0#4 }

/-- The answer to the host's access (R60), recorded after all earlier ones. -/
def State.answer (s : State) (r : Reply) : State := { s with replies := s.replies ++ [r] }

/-- ID: NAME "LSB" in bits 31:8, REV 1 in bits 7:0 (R27). -/
def idWord : Word := 0x4C534201#32

/-- CFG (R28): NLANES = 32 in bits 7:0, UBO in bit 8, zeros above. -/
def cfgWord : BitOrder → Word
  | .msbFirst => 0x00000020#32
  | .lsbFirst => 0x00000120#32

/-- The register map (R41), by the number of the 32-bit word that holds the offset. -/
def regAt (off : Offset) : Reg :=
  match off.val / 4 with
  | 0 => .cmd
  | 1 => .status
  | 2 => .value
  | 3 => .id
  | 4 => .cfg
  | 5 => .reserved 0
  | 6 => .reserved 1
  | 7 => .reserved 2
  | k + 8 => .lane (Fin.ofNat 8 k)

/-- The offset of a register (R41), for the host's own programs (R77 `offset(reg)`). -/
def regOffset : Reg → Offset
  | .cmd => 0x00
  | .status => 0x04
  | .value => 0x08
  | .id => 0x0C
  | .cfg => 0x10
  | .reserved j => ⟨0x14 + 4 * j.val, by omega⟩
  | .lane k => ⟨0x20 + 4 * k.val, by omega⟩

/-- `RegRead` (R45) on a build whose UNPACK_BYTE_ORDER is `order`: only CFG depends on it. -/
def regReadAs (order : BitOrder) (r : Reg) (s : State) : Word :=
  match r with
  | .cmd => 0x00000000#32
  | .status => statusWord s.err s.cause
  | .value => s.value
  | .id => idWord
  | .cfg => cfgWord order
  | .reserved _ => 0x00000000#32
  | .lane k => laneWordOf k s.lanes

/-- `RegRead` (R45) on this hardware. -/
def regRead (r : Reg) (s : State) : Word := regReadAs Config.unpackByteOrder r s

/-- `legal(off, n)` (R44): only aligned 32-bit accesses inside the window are defined. -/
def legalAccess (off n : Nat) : Bool := n == 4 && off % 4 == 0 && off < 64

/-- The offset the block sees, `addr - P_BASE`, for a host address inside the window; an address outside the window
never reaches the block (R42). -/
def windowOffset (pBase addr : Nat) : Option Offset :=
  if h : pBase ≤ addr ∧ addr < pBase + 64 then some ⟨addr - pBase, by omega⟩ else none

end Sys2Proof.Machine
end

