-- ==== Sys2Proof/Machine/ByteOps.lean ====
section
/-! DEFINITION. The byte family (spec/40_byte_ops.md): PACK_BYTE and UNPACK_BYTE. -/

namespace Sys2Proof.Machine

/-- PACK_BYTE G (R92): `pack8(V[7:0], L[8G..8G+7])` written back to the same lanes.  `V[31:8]` is ignored. -/
def execPackByte (g : LaneGroup) (s : State) : Host.Outcome State Fault Refusal :=
  .next (s.setGroup g (pack8 (s.value.extractLsb' 0 8) (groupLanes g s.lanes)))

/-- UNPACK_BYTE G (R95) on a build whose UNPACK_BYTE_ORDER is `order`: `V <- zext_32(unpack8(L[8G..8G+7]))`. -/
def execUnpackByteAs (order : BitOrder) (g : LaneGroup) (s : State) : Host.Outcome State Fault Refusal :=
  .next (s.setValue ((unpack8 order (groupLanes g s.lanes)).setWidth 32))

/-- UNPACK_BYTE G (R95) on this hardware, MSB_FIRST (R6). -/
def execUnpackByte (g : LaneGroup) (s : State) : Host.Outcome State Fault Refusal :=
  execUnpackByteAs Config.unpackByteOrder g s

end Sys2Proof.Machine
end

