-- ==== Sys2Proof/Machine/ControlOps.lean ====
section
/-! DEFINITION. The control family (spec/42_control_ops.md): NOP. -/

namespace Sys2Proof.Machine

/-- NOP (R130): no state changes, a set ERR included. -/
def execNop (s : State) : Host.Outcome State Fault Refusal := .next s

end Sys2Proof.Machine
end

