-- ==== Sys2Proof/Machine/IntOps.lean ====
section
/-! DEFINITION. The integer family (spec/41_int_ops.md): PACK_INT and UNPACK_INT. -/

namespace Sys2Proof.Machine

/-- PACK_INT (R112): `pack32(V, L[0..31])` written back, all 32 lanes in one step. -/
def execPackInt (s : State) : Host.Outcome State Fault Refusal :=
  .next (s.setLanes (pack32 s.value s.lanes))

/-- UNPACK_INT (R115): `V <- unpack32(L[0..31])`, under either value of UNPACK_BYTE_ORDER. -/
def execUnpackInt (s : State) : Host.Outcome State Fault Refusal :=
  .next (s.setValue (unpack32 s.lanes))

end Sys2Proof.Machine
end

