-- ==== Sys2Proof/Machine/Dispatch.lean ====
section
/-! DEFINITION. One arm per command of spec/opcode_table.json. -/

namespace Sys2Proof.Machine

def exec (i : Instr) (s : State) : Host.Outcome State Fault Refusal :=
  match i with
  | .nop => Sys2Proof.Machine.execNop s
  | .packByte g => Sys2Proof.Machine.execPackByte g s
  | .unpackByte g => Sys2Proof.Machine.execUnpackByte g s
  | .packInt => Sys2Proof.Machine.execPackInt s
  | .unpackInt => Sys2Proof.Machine.execUnpackInt s

end Sys2Proof.Machine
end

