-- ==== Sys2Proof/Machine/Bus.lean ====
section
/-! DEFINITION. How the block serves one host event: `Execute` (spec/30_encoding.md R75), `RegWrite`, `MemRead` and
`MemWrite` (spec/20_memory.md R44 to R46), and reset (spec/70_reset_and_hazards.md R170). -/

namespace Sys2Proof.Machine

/-- A state change applied to a step that went on; a fault or a refusal stays what it is. -/
def onNext (f : State → State) : Host.Outcome State Fault Refusal → Host.Outcome State Fault Refusal
  | .next s => .next (f s)
  | .fault r => .fault r
  | .refused r => .refused r

/-- `Execute(w)` (R75): the command the word selects, or the word discarded with its one cause (R74, R144). -/
def execute (w : Word) (s : State) : Host.Outcome State Fault Refusal :=
  match decode w with
  | .command i => exec i s
  | .discarded cause => .next (s.cmdError cause)

/-- `RegWrite` (R46).  Writes to ID, CFG and the reserved offsets are ignored and are no errors. -/
def regWrite (r : Reg) (v : Word) (s : State) : Host.Outcome State Fault Refusal :=
  match r with
  | .cmd => execute v s
  | .status => .next (s.writeStatus v)
  | .value => .next (s.setValue v)
  | .id => .next s
  | .cfg => .next s
  | .reserved _ => .next s
  | .lane k => .next (s.setLanes (withLaneWord k v s.lanes))

/-- `MemRead(off, n)` (R44): no read has a side effect on the block (R45); the data goes back to the host. -/
def memRead (off : Offset) (n : Nat) (s : State) : Host.Outcome State Fault Refusal :=
  if legalAccess off.val n then .next (s.answer (.data (regRead (regAt off) s)))
  else .fault (.busError off n .read)

/-- `MemWrite(off, n, v)` (R44): the write completes after all it does, the command included (R23, R52). -/
def memWrite (off : Offset) (n : Nat) (v : Word) (s : State) : Host.Outcome State Fault Refusal :=
  if legalAccess off.val n then onNext (fun t => t.answer .done) (regWrite (regAt off) v s)
  else .fault (.busError off n .write)

/-- One event at the block: it takes a step only in response to one (R40), and serves it whole (R51, R52). -/
def serve (e : HostEvent) (s : State) : Host.Outcome State Fault Refusal :=
  match e with
  | .read off n => memRead off n s
  | .write off n v => memWrite off n v s
  | .reset => .next s.resetBlock

/-- The first event of the host's sequence is taken from it and served; a passive block that is presented nothing
stays as it is (R40, log entry 4). -/
def serveNext (s : State) : Host.Outcome State Fault Refusal :=
  match s.requests with
  | [] => .next s
  | e :: rest => serve e { s with requests := rest }

end Sys2Proof.Machine
end

