-- ==== Sys2Proof/Machine/HostProgram.lean ====
section
/-! DEFINITION. The host's side: its notation for accesses and commands (spec/30_encoding.md R77), the canonical
sequences (spec/70_reset_and_hazards.md R180), and how an access at a host address reaches the block through the
window at `P_BASE` (spec/20_memory.md R42, R59). -/

namespace Sys2Proof.Machine

/-- `WR <reg>, <imm32>` (R77). -/
def wr (r : Reg) (v : Word) : HostEvent := .write (regOffset r) 4 v

/-- `RD <reg>` (R77). -/
def rd (r : Reg) : HostEvent := .read (regOffset r) 4

/-- A command: `WR CMD, <its word>` (R77). -/
def cmd (i : Instr) : HostEvent := wr .cmd (encode i)

/-- `PACKB g, imm8` (R77). -/
def packB (g : LaneGroup) (b : Byte) : List HostEvent := [wr .value (b.setWidth 32), cmd (.packByte g)]

/-- `PACKI imm32` (R77). -/
def packI (v : Word) : List HostEvent := [wr .value v, cmd .packInt]

/-- `UNPACKB g` (R77). -/
def unpackB (g : LaneGroup) : List HostEvent := [cmd (.unpackByte g), rd .value]

/-- `UNPACKI` (R77). -/
def unpackI : List HostEvent := [cmd .unpackInt, rd .value]

/-- `CLRERR` (R77). -/
def clrErr : HostEvent := wr .status 0x00000001#32

/-- `LW(G, 0) = LANE(2G)`, `LW(G, 1) = LANE(2G+1)` (R180). -/
def lw (g : LaneGroup) (h : Fin 2) : Reg := .lane ⟨2 * g.val + h.val, by omega⟩

/-- Four carrier bytes as a little-endian host's word (R47, R180). -/
def wordOfBytes (b0 b1 b2 b3 : Byte) : Word := b3 ++ b2 ++ b1 ++ b0

/-- The two writes that load eight carrier bytes into group `G` (R180). -/
def loadGroup (g : LaneGroup) (carrier : Vector Byte 8) : List HostEvent :=
  [wr (lw g 0) (wordOfBytes carrier[0] carrier[1] carrier[2] carrier[3]),
   wr (lw g 1) (wordOfBytes carrier[4] carrier[5] carrier[6] carrier[7])]

/-- The eight writes that load 32 carrier bytes (R180). -/
def loadAll (carrier : Lanes) : List HostEvent :=
  (List.finRange 8).map fun k => wr (.lane k) (laneWordOf k carrier)

/-- R180: pack one byte into eight carrier bytes, using group `G`. -/
def packByteSequence (g : LaneGroup) (carrier : Vector Byte 8) (b : Byte) : List HostEvent :=
  loadGroup g carrier ++ packB g b ++ [rd (lw g 0), rd (lw g 1)]

/-- R180: unpack one byte from eight carrier bytes. -/
def unpackByteSequence (g : LaneGroup) (carrier : Vector Byte 8) : List HostEvent :=
  loadGroup g carrier ++ unpackB g

/-- R180: pack a 32-bit value over 32 carrier bytes. -/
def packIntSequence (carrier : Lanes) (v : Word) : List HostEvent :=
  loadAll carrier ++ packI v ++ (List.finRange 8).map fun k => rd (.lane k)

/-- R180: unpack a 32-bit value from 32 carrier bytes. -/
def unpackIntSequence (carrier : Lanes) : List HostEvent := loadAll carrier ++ unpackI

/-- Accesses presented behind those already at the port: the block adds no reordering (R52). -/
def State.present (s : State) (es : List HostEvent) : State := { s with requests := s.requests ++ es }

/-- A host read of `n` bytes at a host address, on a platform that puts the window at `pBase`: outside the window it
never reaches the block (R42). -/
def State.presentRead (s : State) (pBase addr n : Nat) : State :=
  match windowOffset pBase addr with
  | some off => s.present [.read off n]
  | none => s

/-- A host write at a host address, likewise (R42). -/
def State.presentWrite (s : State) (pBase addr n : Nat) (v : Word) : State :=
  match windowOffset pBase addr with
  | some off => s.present [.write off n v]
  | none => s

end Sys2Proof.Machine
end

