-- ==== Sys2Proof/Machine/Step.lean ====
section
/-! DEFINITION. One step of the machine: one host event, served whole (spec/20_memory.md R40, R51, R52;
spec/70_reset_and_hazards.md R179). -/

namespace Sys2Proof.Machine

/-- One step: the block fetches nothing (R20); its next command is whatever the host's next CMD write presents. -/
def step (s : State) : Host.Outcome State Fault Refusal := serveNext s

/-- The state in which the very next step runs the command word `w` of `nbits` bits: the host's next event is the
write of that word to CMD (R20, R23, log entry 9). -/
def State.withFetchWord (s : State) (nbits w : Nat) : State :=
  { s with requests := wr .cmd (BitVec.ofNat 32 (w % 2 ^ nbits)) :: s.requests }

end Sys2Proof.Machine
end

