-- ==== Sys2Proof/Safety.lean ====
section
/-! DEFINITION. The terms claims are made in: the invariant of STATUS (spec/10_state.md R24, R25), the block's
architectural part of a state (R33), and a host that makes only defined accesses (spec/20_memory.md R44, R60). -/

namespace Sys2Proof.Machine

/-- The invariant of R24, "`ERR = 0` if and only if `CAUSE = 0`", with R25: CAUSE only ever holds 0, 1 or 2. -/
def State.StatusInv (s : State) : Prop := (s.err = 0 ↔ s.cause = 0) ∧ s.cause.toNat ≤ 2

/-- The block's entire architectural state (R33): L, V, ERR, CAUSE. -/
structure Block where
  lanes : Lanes
  value : Word
  err : BitVec 1
  cause : BitVec 4
  deriving DecidableEq, Repr

/-- The architectural part of a state (R33). -/
def State.block (s : State) : Block := ⟨s.lanes, s.value, s.err, s.cause⟩

/-- `k` steps, stopping at the first fault or refusal: the host's own `Host.Core.run` of this machine, spelled over
`State` (lemma `run_eq_core`). -/
def run : Nat → State → Host.Outcome State Fault Refusal
  | 0, s => .next s
  | k + 1, s =>
    match step s with
    | .next t => run k t
    | .fault r => .fault r
    | .refused r => .refused r

/-- The accesses R44 defines, and reset. -/
def HostEvent.defined : HostEvent → Bool
  | .read off n => legalAccess off.val n
  | .write off n _ => legalAccess off.val n
  | .reset => true

/-- Whether the host gets an answer back: from every access, not from reset (R60). -/
def HostEvent.isAccess : HostEvent → Bool
  | .read _ _ => true
  | .write _ _ _ => true
  | .reset => false

/-- R60's duty "never issue one" on all the host has still to present. -/
def State.WellDriven (s : State) : Prop := ∀ e ∈ s.requests, e.defined = true

end Sys2Proof.Machine
end

