-- ==== Sys2Proof/Certificates/Slice0/Obligations.lean ====
section
/-! DEFINITION. The statements for the provers, from the numbered rules of spec/.  Where a statement speaks of a step,
the host's sequence is written into the state (`{ s with requests := e :: rest }`), so that it holds for every state of
the block, every later sequence and every history of answers. -/

open Sys2Proof Sys2Proof.Machine

/-! ## Encoding -/

/-- R71, R78: a word selects a command exactly when it is that command's word: no bit of an encoding is dropped, and no
two words select one command. -/
def Obligations.DecodeSelectsExactlyTheEncodedCommand : Prop :=
  ∀ (w : Word) (i : Instr), decode w = .command i ↔ w = encode i

/-- R72: the predicate `legal_cmd`, written apart from the decoder, holds of exactly the words that select a command. -/
def Obligations.LegalWordsAreThoseThatDecode : Prop :=
  ∀ w : Word, legalCmd w = true ↔ ∃ i, decode w = .command i

/-- R71: the eleven listed words are the legal ones, each selects the command listed beside it, OP 5, 6 and 7 are
reserved, and every other word is discarded with a cause. -/
def Obligations.ExactlyElevenWordsAreLegal : Prop :=
  legalWords.length = 11 ∧ legalWords.Nodup ∧ (∀ w : Word, legalCmd w = true ↔ w ∈ legalWords)
  ∧ legalWords.map decode
      = [.command .nop, .command (.packByte 0), .command (.packByte 1), .command (.packByte 2), .command (.packByte 3),
         .command (.unpackByte 0), .command (.unpackByte 1), .command (.unpackByte 2), .command (.unpackByte 3),
         .command .packInt, .command .unpackInt]
  ∧ (∀ w : Word, 5 ≤ (w.extractLsb' 0 3).toNat → decode w = .discarded .illegalOp)
  ∧ (∀ w : Word, w ∉ legalWords → ∃ cause, decode w = .discarded cause)

/-- R78: masks and patterns of the opcode table decide the command: one row, and only one, accepts a word that selects a
command, and it is that command's row; no row accepts a discarded word. -/
def Obligations.OneTableRowAcceptsEachLegalWord : Prop :=
  ∀ w : Word,
    (∀ i, decode w = .command i →
      ∃ r ∈ opcodeTable, r.accepts w = true ∧ r.mnemonic = i.mnemonic
        ∧ ∀ r' ∈ opcodeTable, r'.accepts w = true → r' = r)
    ∧ (∀ cause, decode w = .discarded cause → ∀ r ∈ opcodeTable, r.accepts w = false)

/-- Words written out from the field layout of R70 and the tables of R71 and R74. -/
def Obligations.WordsOfTheSpecDecodeAsListed : Prop :=
  decode 0x00000000 = .command .nop
  ∧ decode 0x00000031 = .command (.packByte 3)
  ∧ decode 0x00000022 = .command (.unpackByte 2)
  ∧ decode 0x00000003 = .command .packInt
  ∧ decode 0x00000004 = .command .unpackInt
  ∧ decode 0x00000045 = .discarded .illegalOp
  ∧ decode 0x00000007 = .discarded .illegalOp
  ∧ decode 0x00000008 = .discarded .reservedField
  ∧ decode 0x00000013 = .discarded .reservedField
  ∧ decode 0x80000001 = .discarded .reservedField

/-- R41: the register map is one to one between the aligned offsets of the window and the registers. -/
def Obligations.RegisterMapIsOneToOne : Prop :=
  (∀ r : Reg, (regOffset r).val % 4 = 0 ∧ regAt (regOffset r) = r)
  ∧ (∀ off : Offset, off.val % 4 = 0 → regOffset (regAt off) = off)

/-! ## From a CMD write to a command -/

/-- R75, as the spec's pseudocode writes it, for every word. -/
def Obligations.ExecuteFollowsItsPseudocode : Prop :=
  ∀ (w : Word) (s : State),
    let op := (w.extractLsb' 0 3).toNat
    let g : LaneGroup := ⟨(w.extractLsb' 4 2).toNat, (w.extractLsb' 4 2).isLt⟩
    let cmdError := fun code : BitVec 4 =>
      Host.Outcome.next { s with err := 1, cause := if s.err = 0 then code else s.cause }
    execute w s =
      if 5 ≤ op then cmdError 1
      else if w.extractLsb' 3 1 ≠ 0 ∨ w.extractLsb' 6 26 ≠ 0 then cmdError 2
      else if op = 0 then (if g ≠ 0 then cmdError 2 else exec .nop s)
      else if op = 1 then exec (.packByte g) s
      else if op = 2 then exec (.unpackByte g) s
      else if op = 3 then (if g ≠ 0 then cmdError 2 else exec .packInt s)
      else (if g ≠ 0 then cmdError 2 else exec .unpackInt s)

/-- R23, R52, R75: a step whose event is a CMD write of a word that decodes to a command is `exec` of that command, and
then the write's completion. -/
def Obligations.StepRunsTheDecodedCommand : Prop :=
  ∀ (s : State) (rest : List HostEvent) (w : Word) (i : Instr), decode w = .command i →
    step { s with requests := .write 0x00 4 w :: rest }
      = onNext (fun t => t.answer .done) (exec i { s with requests := rest })

/-- R74, R144: a word that is not legal changes nothing but STATUS, where the first error since the last clear is kept;
the CMD write itself completes. -/
def Obligations.DiscardedWordIsRecordedInStatusOnly : Prop :=
  ∀ (s : State) (rest : List HostEvent) (w : Word), legalCmd w = false →
    step { s with requests := .write 0x00 4 w :: rest }
      = .next { s with
          requests := rest
          replies := s.replies ++ [.done]
          err := 1
          cause := if s.err = 0 then (if 5 ≤ (w.extractLsb' 0 3).toNat then 1 else 2) else s.cause }

/-- The model's own way to present a command word (log entry 9) does so: the next step executes it. -/
def Obligations.PlacedWordIsExecutedNext : Prop :=
  ∀ (s : State) (w : Word),
    step (s.withFetchWord 32 w.toNat) = onNext (fun t => t.answer .done) (execute w s)

/-! ## The commands: each completes, with its result and its frame -/

/-- R130: NOP changes nothing; its word is 0; OP = 0 with any other bit set is discarded with RESERVED_FIELD,
which does set ERR. -/
def Obligations.NopCompletesAndChangesNothing : Prop :=
  (∀ s : State, exec .nop s = .next s)
  ∧ decode 0x00000000 = .command .nop
  ∧ (∀ w : Word, w.extractLsb' 0 3 = 0 → w ≠ 0 → decode w = .discarded .reservedField
      ∧ ∀ s : State, ∃ t, execute w s = .next t ∧ t.err = 1)

/-- R92: PACK_BYTE G completes in every state: lane 8G+i keeps its bits 7..1 and takes V[7-i] as its bit 0; every other
lane, V, STATUS and the host's two queues stay.  Its word is `1 | G << 4`; a reserved bit
discards it, and then no lane changes. -/
def Obligations.PackByteCompletesWithItsResult : Prop :=
  (∀ (g : LaneGroup) (s : State), ∃ t, exec (.packByte g) s = .next t
    ∧ (∀ i : Fin 8, t.lanes[8 * g.val + i.val]
        = (s.lanes[8 * g.val + i.val] &&& 0xFE#8) ||| (s.value.extractLsb' (7 - i.val) 1).setWidth 8)
    ∧ (∀ j : Fin 32, j.val / 8 ≠ g.val → t.lanes[j] = s.lanes[j])
    ∧ t.value = s.value ∧ t.err = s.err ∧ t.cause = s.cause
    ∧ t.requests = s.requests ∧ t.replies = s.replies)
  ∧ (∀ g : LaneGroup, decode (0x00000001#32 ||| (BitVec.ofNat 32 g.val <<< 4)) = .command (.packByte g))
  ∧ (∀ w : Word, w.extractLsb' 0 3 = 1 → (w.extractLsb' 3 1 ≠ 0 ∨ w.extractLsb' 6 26 ≠ 0) →
      decode w = .discarded .reservedField ∧ ∀ s : State, ∃ t, execute w s = .next t ∧ t.lanes = s.lanes)

/-- R95: UNPACK_BYTE G completes in every state: V[7-i] becomes bit 0 of lane 8G+i and V[31:8] becomes 0; no lane, no
flag and neither queue changes.  On a build with LSB_FIRST, V[i] becomes bit 0 of lane 8G+i instead.  Its word is
`2 | G << 4`; a reserved bit discards it, and then V does not change. -/
def Obligations.UnpackByteCompletesWithItsResult : Prop :=
  (∀ (g : LaneGroup) (s : State), ∃ v : Word, exec (.unpackByte g) s = .next { s with value := v }
    ∧ (∀ i : Fin 8, v.extractLsb' (7 - i.val) 1 = s.lanes[8 * g.val + i.val].extractLsb' 0 1)
    ∧ v.extractLsb' 8 24 = 0)
  ∧ (∀ (g : LaneGroup) (s : State), ∃ v : Word, execUnpackByteAs .lsbFirst g s = .next { s with value := v }
    ∧ (∀ i : Fin 8, v.extractLsb' i.val 1 = s.lanes[8 * g.val + i.val].extractLsb' 0 1)
    ∧ v.extractLsb' 8 24 = 0)
  ∧ (∀ g : LaneGroup, decode (0x00000002#32 ||| (BitVec.ofNat 32 g.val <<< 4)) = .command (.unpackByte g))
  ∧ (∀ w : Word, w.extractLsb' 0 3 = 2 → (w.extractLsb' 3 1 ≠ 0 ∨ w.extractLsb' 6 26 ≠ 0) →
      decode w = .discarded .reservedField ∧ ∀ s : State, ∃ t, execute w s = .next t ∧ t.value = s.value)

/-- R112: PACK_INT completes in every state: lane i keeps its bits 7..1 and takes V[31-i] as its bit 0; V, STATUS and the
host's two queues stay.  Its word is 3; any other bit set beside OP = 3 discards it, and then no lane changes. -/
def Obligations.PackIntCompletesWithItsResult : Prop :=
  (∀ s : State, ∃ t, exec .packInt s = .next t
    ∧ (∀ i : Fin 32, t.lanes[i]
        = (s.lanes[i] &&& 0xFE#8) ||| (s.value.extractLsb' (31 - i.val) 1).setWidth 8)
    ∧ t.value = s.value ∧ t.err = s.err ∧ t.cause = s.cause
    ∧ t.requests = s.requests ∧ t.replies = s.replies)
  ∧ decode 0x00000003 = .command .packInt
  ∧ (∀ w : Word, w.extractLsb' 0 3 = 3 → w ≠ 3 → decode w = .discarded .reservedField
      ∧ ∀ s : State, ∃ t, execute w s = .next t ∧ t.lanes = s.lanes)

/-- R115: UNPACK_INT completes in every state: V[31-i] becomes bit 0 of lane i; no lane, no flag and neither queue
changes.  Its word is 4; any other bit set beside OP = 4 discards it, and then V does
not change. -/
def Obligations.UnpackIntCompletesWithItsResult : Prop :=
  (∀ s : State, ∃ v : Word, exec .unpackInt s = .next { s with value := v }
    ∧ (∀ i : Fin 32, v.extractLsb' (31 - i.val) 1 = s.lanes[i].extractLsb' 0 1))
  ∧ decode 0x00000004 = .command .unpackInt
  ∧ (∀ w : Word, w.extractLsb' 0 3 = 4 → w ≠ 4 → decode w = .discarded .reservedField
      ∧ ∀ s : State, ∃ t, execute w s = .next t ∧ t.value = s.value)

/-! ## The laws of the byte family -/

/-- R96: the byte round trip, under both orders, and at the level of the two commands. -/
def Obligations.ByteRoundTrip : Prop :=
  (∀ (b : Byte) (carrier : Vector Byte 8),
    unpack8 .msbFirst (pack8 b carrier) = b ∧ unpack8 .lsbFirst (pack8 b carrier) = rev8 b)
  ∧ (∀ (b : Byte) (i : Fin 8), (rev8 b).getLsbD i.val = b.getLsbD (7 - i.val))
  ∧ ((List.range 256).filter fun n => rev8 (BitVec.ofNat 8 n) == BitVec.ofNat 8 n).length = 16
  ∧ (∀ (g : LaneGroup) (s : State), ∃ t, exec (.packByte g) s = .next t
      ∧ exec (.unpackByte g) t = .next { t with value := (s.value.extractLsb' 0 8).setWidth 32 })

/-- R97: packing a byte keeps bits 7..1 of every carrier byte, so PACK_BYTE changes nothing in the lane file but bit 0 of
the lanes of its group. -/
def Obligations.BytePackKeepsUpperBits : Prop :=
  (∀ (b : Byte) (carrier : Vector Byte 8) (i : Fin 8), (pack8 b carrier)[i] &&& 0xFE#8 = carrier[i] &&& 0xFE#8)
  ∧ (∀ (g : LaneGroup) (s t : State), exec (.packByte g) s = .next t → ∀ (j : Fin 32) (k : Nat),
      t.lanes[j].getLsbD k ≠ s.lanes[j].getLsbD k → k = 0 ∧ j.val / 8 = g.val)

/-- R98: a second pack overwrites the first, and repeating a pack changes nothing. -/
def Obligations.BytePackOverwrites : Prop :=
  ∀ (b b' : Byte) (carrier : Vector Byte 8),
    pack8 b (pack8 b' carrier) = pack8 b carrier ∧ pack8 b (pack8 b carrier) = pack8 b carrier

/-- R99: unpacking a byte reads bit 0 of each carrier byte and nothing else, under both orders. -/
def Obligations.ByteUnpackReadsOnlyBitZero : Prop :=
  ∀ (order : BitOrder) (carrier carrier' : Vector Byte 8),
    (∀ i : Fin 8, carrier[i].getLsbD 0 = carrier'[i].getLsbD 0) → unpack8 order carrier = unpack8 order carrier'

/-! ## The laws of the integer family -/

/-- R116: the integer round trip, and at the level of the two commands. -/
def Obligations.IntRoundTrip : Prop :=
  (∀ (v : Word) (carrier : Vector Byte 32), unpack32 (pack32 v carrier) = v)
  ∧ (∀ s : State, ∃ t, exec .packInt s = .next t ∧ t.value = s.value ∧ exec .unpackInt t = .next t)

/-- R117: an integer is its four bytes, most significant byte in the lowest lanes: for the packed lanes, for the host's
`PACKI` against its four `PACKB`s (equal lanes, V as each leaves it), and for unpacking; under LSB_FIRST the last holds
only if every unpacked byte is its own reversal. -/
def Obligations.IntIsItsFourBytes : Prop :=
  (∀ (v : Word) (lanes : Lanes) (g : LaneGroup),
    groupLanes g (pack32 v lanes) = pack8 (v.extractLsb' (24 - 8 * g.val) 8) (groupLanes g lanes))
  ∧ (∀ (v : Word) (s : State), ∃ t u,
      run 2 { s with requests := packI v } = .next t
      ∧ run 8
          { s with requests := packB 0 (v.extractLsb' 24 8) ++ packB 1 (v.extractLsb' 16 8)
              ++ packB 2 (v.extractLsb' 8 8) ++ packB 3 (v.extractLsb' 0 8) } = .next u
      ∧ t.lanes = u.lanes ∧ t.value = v ∧ u.value = (v.extractLsb' 0 8).setWidth 32)
  ∧ (∀ lanes : Lanes, unpack32 lanes
      = unpack8 .msbFirst (groupLanes 0 lanes) ++ unpack8 .msbFirst (groupLanes 1 lanes)
        ++ unpack8 .msbFirst (groupLanes 2 lanes) ++ unpack8 .msbFirst (groupLanes 3 lanes))
  ∧ (∀ lanes : Lanes, (unpack32 lanes
      = unpack8 .lsbFirst (groupLanes 0 lanes) ++ unpack8 .lsbFirst (groupLanes 1 lanes)
        ++ unpack8 .lsbFirst (groupLanes 2 lanes) ++ unpack8 .lsbFirst (groupLanes 3 lanes))
      ↔ ∀ g : LaneGroup, rev8 (unpack8 .lsbFirst (groupLanes g lanes)) = unpack8 .lsbFirst (groupLanes g lanes))

/-- R118: packing an integer keeps bits 7..1 of every carrier byte, and a second pack overwrites the first. -/
def Obligations.IntPackKeepsUpperBitsAndOverwrites : Prop :=
  ∀ (v v' : Word) (carrier : Vector Byte 32),
    (∀ i : Fin 32, (pack32 v carrier)[i] &&& 0xFE#8 = carrier[i] &&& 0xFE#8)
    ∧ pack32 v (pack32 v' carrier) = pack32 v carrier

/-- R175: the two families share the lanes: a PACK_INT after a PACK_BYTE leaves no trace of it, and a PACK_BYTE G after a
PACK_INT replaces exactly the eight bits of the packed integer that group G holds. -/
def Obligations.OverlappingPacksOverwrite : Prop :=
  (∀ (v : Word) (b : Byte) (g : LaneGroup) (lanes : Lanes),
    pack32 v (withGroupLanes g (pack8 b (groupLanes g lanes)) lanes) = pack32 v lanes)
  ∧ (∀ (v : Word) (b : Byte) (g g' : LaneGroup) (lanes : Lanes),
      (unpack32 (withGroupLanes g (pack8 b (groupLanes g (pack32 v lanes))) (pack32 v lanes))).extractLsb'
          (24 - 8 * g'.val) 8
        = if g' = g then b else v.extractLsb' (24 - 8 * g'.val) 8)

/-! ## The register window -/

/-- R45: what a 4-byte read at each aligned offset answers; it changes nothing in the block. -/
def Obligations.ReadsAnswerTheRegisters : Prop :=
  ∀ (s : State) (rest : List HostEvent),
    let answers := fun (off : Offset) (v : Word) =>
      step { s with requests := .read off 4 :: rest }
        = .next { s with requests := rest, replies := s.replies ++ [.data v] }
    answers 0x00 0x00000000
    ∧ answers 0x04 ((s.cause ++ 0b000#3 ++ s.err).setWidth 32)
    ∧ answers 0x08 s.value
    ∧ answers 0x0C 0x4C534201
    ∧ answers 0x10 0x00000020 ∧ regReadAs .lsbFirst .cfg s = 0x00000120
    ∧ answers 0x14 0x00000000 ∧ answers 0x18 0x00000000 ∧ answers 0x1C 0x00000000
    ∧ ∀ k : Fin 8, answers ⟨0x20 + 4 * k.val, by omega⟩
        (s.lanes[4 * k.val + 3] ++ s.lanes[4 * k.val + 2] ++ s.lanes[4 * k.val + 1] ++ s.lanes[4 * k.val])

/-- R46: what a 4-byte write at each aligned offset does, and that it completes; a write to CMD executes the word. -/
def Obligations.WritesActOnTheRegisters : Prop :=
  ∀ (s : State) (rest : List HostEvent) (v : Word),
    let after := fun (off : Offset) => step { s with requests := .write off 4 v :: rest }
    let gives := fun (off : Offset) (t : State) =>
      after off = .next { t with requests := rest, replies := s.replies ++ [.done] }
    after 0x00 = onNext (fun t => t.answer .done) (execute v { s with requests := rest })
    ∧ gives 0x04 (if v.extractLsb' 0 1 = 1 then { s with err := 0, cause := 0 } else s)
    ∧ gives 0x08 { s with value := v }
    ∧ gives 0x0C s ∧ gives 0x10 s ∧ gives 0x14 s ∧ gives 0x18 s ∧ gives 0x1C s
    ∧ ∀ k : Fin 8, ∃ lanes : Lanes, gives ⟨0x20 + 4 * k.val, by omega⟩ { s with lanes := lanes }
        ∧ lanes[4 * k.val] = v.extractLsb' 0 8 ∧ lanes[4 * k.val + 1] = v.extractLsb' 8 8
        ∧ lanes[4 * k.val + 2] = v.extractLsb' 16 8 ∧ lanes[4 * k.val + 3] = v.extractLsb' 24 8
        ∧ ∀ j : Fin 32, j.val / 4 ≠ k.val → lanes[j] = s.lanes[j]

/-- R47: lane `4k+j` is bits `8j+7..8j` of LANEk, in the word a read returns and in the word a write stores; a word
written to LANEk reads back. -/
def Obligations.LaneWordsAreLittleEndian : Prop :=
  ∀ (s : State) (k : Fin 8) (j : Fin 4) (v : Word),
    (regRead (.lane k) s).extractLsb' (8 * j.val) 8 = s.lanes[4 * k.val + j.val]
    ∧ ∃ t, run 2 { s with requests := [wr (.lane k) v, rd (.lane k)] } = .next t
      ∧ t.lanes[4 * k.val + j.val] = v.extractLsb' (8 * j.val) 8
      ∧ t.replies = s.replies ++ [.done, .data v]

/-- R44, R50: a step faults exactly when the access at the head of the host's sequence is not of 4 bytes or not 4-byte
aligned, and the fault names that access. -/
def Obligations.BusErrorExactlyOnUndefinedAccess : Prop :=
  ∀ (s : State) (f : Fault), step s = .fault f ↔
    ∃ (off : Offset) (n : Nat) (rest : List HostEvent), (n ≠ 4 ∨ off.val % 4 ≠ 0)
      ∧ ((s.requests = .read off n :: rest ∧ f = .busError off n .read)
        ∨ ∃ v, s.requests = .write off n v :: rest ∧ f = .busError off n .write)

/-- The model refuses nothing: whatever the host presents, a step goes on or is a BusError. -/
def Obligations.NoStepIsRefused : Prop :=
  ∀ (s : State) (r : Refusal), step s ≠ .refused r

/-- R42, R52: on a platform whose `P_BASE` is a multiple of 64, the block sees offset `addr mod 64` of the addresses in
its 64-byte window, and no access to any other address.  A read or a write at an address of the window arrives as that
access at offset `addr - P_BASE`, behind the accesses already at the port, and changes nothing else; at any other
address nothing arrives.  That accesses on their way to the block stand in `requests`, by offset, is the model's choice
(log entries 1 and 7). -/
def Obligations.WindowSeesOffsetsFromItsBase : Prop :=
  ∀ (pBase addr : Nat), Config.legalPBase pBase = true →
    (∀ off : Offset, windowOffset pBase addr = some off ↔ addr / 64 = pBase / 64 ∧ off.val = addr % 64)
    ∧ (addr / 64 = pBase / 64 → ∃ off : Offset, addr = pBase + off.val ∧ ∀ (s : State) (n : Nat) (v : Word),
        s.presentRead pBase addr n = { s with requests := s.requests ++ [.read off n] }
        ∧ s.presentWrite pBase addr n v = { s with requests := s.requests ++ [.write off n v] })
    ∧ (addr / 64 ≠ pBase / 64 → ∀ (s : State) (n : Nat) (v : Word),
        s.presentRead pBase addr n = s ∧ s.presentWrite pBase addr n v = s)

/-! ## STATUS -/

/-- R24's invariant `ERR = 0` if and only if `CAUSE = 0`, with R25's `CAUSE` at most 2: every step keeps it, whatever the
host presents. -/
def Obligations.StepKeepsStatusInvariant : Prop :=
  ∀ s t : State, s.StatusInv → step s = .next t → t.StatusInv

/-- The invariant of STATUS holds right after reset. -/
def Obligations.StatusInvariantHoldsAtReset : Prop :=
  State.reset.StatusInv

/-- R26, R29: what a step can do to ERR and CAUSE: leave both; clear both, by reset or a STATUS write with bit 0 set; or
set ERR, by a CMD write of a word that is not legal, which writes CAUSE only if ERR was 0. -/
def Obligations.FlagsChangeOnlyByDiscardClearOrReset : Prop :=
  ∀ s t : State, step s = .next t →
    (t.err = s.err ∧ t.cause = s.cause)
    ∨ (t.err = 0 ∧ t.cause = 0 ∧ ∃ rest, s.requests = .reset :: rest
        ∨ ∃ v : Word, v.getLsbD 0 = true ∧ s.requests = .write 0x04 4 v :: rest)
    ∨ (t.err = 1 ∧ (s.err ≠ 0 → t.cause = s.cause)
        ∧ ∃ (w : Word) (rest : List HostEvent), legalCmd w = false ∧ s.requests = .write 0x00 4 w :: rest)

/-- R144, R149 over a whole run: once an error is recorded, it stays, with its cause, through any number of steps, as long
as the host presents no STATUS write with bit 0 set and no reset.  Steps past the last event rest on log entry 4
(DEDUCED). -/
def Obligations.FirstErrorStaysUntilCleared : Prop :=
  ∀ (k : Nat) (s t : State), s.err = 1 →
    (∀ e ∈ s.requests, e ≠ .reset ∧ ∀ (v : Word), e = .write 0x04 4 v → v.getLsbD 0 = false) →
    run k s = .next t → t.err = 1 ∧ t.cause = s.cause

/-- R147: a set ERR blocks nothing: commands and accesses to the other registers do with any ERR and CAUSE what they do
with any other, and leave both as they were. -/
def Obligations.ErrBlocksNothing : Prop :=
  ∀ (s : State) (e : BitVec 1) (code : BitVec 4),
    (∀ i : Instr, exec i (s.setStatus e code) = onNext (fun t => t.setStatus e code) (exec i s))
    ∧ (∀ r : Reg, r ≠ .status → regRead r (s.setStatus e code) = regRead r s)
    ∧ (∀ (r : Reg) (v : Word), r ≠ .status → r ≠ .cmd →
        regWrite r v (s.setStatus e code) = onNext (fun t => t.setStatus e code) (regWrite r v s))

/-! ## The whole machine -/

/-- R21: the commands and the lanes: no command writes bits 7..1 of a lane, no UNPACK command and no NOP writes any lane,
and no step at all changes bits 7..1 of lane j but a write to its LANE word or reset. -/
def Obligations.UpperLaneBitsMoveOnlyByLaneWriteOrReset : Prop :=
  (∀ (i : Instr) (s t : State), exec i s = .next t →
    (∀ j : Fin 32, t.lanes[j] &&& 0xFE#8 = s.lanes[j] &&& 0xFE#8)
    ∧ ((i = .nop ∨ i = .unpackInt ∨ ∃ g, i = .unpackByte g) → t.lanes = s.lanes))
  ∧ (∀ (s t : State) (j : Fin 32), step s = .next t → t.lanes[j] &&& 0xFE#8 ≠ s.lanes[j] &&& 0xFE#8 →
      ∃ rest, s.requests = .reset :: rest
        ∨ ∃ v : Word, s.requests = wr (.lane ⟨j.val / 4, by omega⟩) v :: rest)

/-- R22: VALUE changes only by a VALUE write, by an UNPACK command or by reset. -/
def Obligations.ValueChangesOnlyByWriteUnpackOrReset : Prop :=
  ∀ s t : State, step s = .next t → t.value ≠ s.value →
    ∃ rest, s.requests = .reset :: rest
      ∨ (∃ v : Word, s.requests = wr .value v :: rest ∧ t.value = v)
      ∨ s.requests = cmd .unpackInt :: rest
      ∨ ∃ g, s.requests = cmd (.unpackByte g) :: rest

/-- R170, R32: reset puts L, V, ERR and CAUSE at their reset values from any state; the host's later events and the
answers given stay. -/
def Obligations.ResetPutsEveryRegisterAtItsValue : Prop :=
  ∀ (s : State) (rest : List HostEvent), ∃ t, step { s with requests := .reset :: rest } = .next t
    ∧ (∀ j : Fin 32, t.lanes[j] = 0x00) ∧ t.value = 0x00000000 ∧ t.err = 0 ∧ t.cause = 0
    ∧ t.requests = rest ∧ t.replies = s.replies

/-- R32: the values after reset, of the state and of every register as the host reads it. -/
def Obligations.ResetStateReadsAsTheSpecSays : Prop :=
  (∀ j : Fin 32, State.reset.lanes[j] = 0x00) ∧ State.reset.value = 0 ∧ State.reset.err = 0 ∧ State.reset.cause = 0
  ∧ regRead .cmd State.reset = 0x00000000 ∧ regRead .status State.reset = 0x00000000
  ∧ regRead .id State.reset = 0x4C534201 ∧ regRead .cfg State.reset = 0x00000020
  ∧ ∀ k : Fin 8, regRead (.lane k) State.reset = 0x00000000

/-- R40: the block is passive; the model's step with nothing presented leaves the state as it is (log entry 4). -/
def Obligations.NothingPresentedNothingChanges : Prop :=
  ∀ s : State, s.requests = [] → step s = .next s

/-- R52: a step takes exactly the first event of the host's sequence, and gives at most one answer, after all earlier
ones: one for an access, none for a reset. -/
def Obligations.StepTakesExactlyTheFirstEvent : Prop :=
  ∀ (s t : State) (e : HostEvent) (rest : List HostEvent), s.requests = e :: rest → step s = .next t →
    t.requests = rest
    ∧ ∃ answers : List Reply, t.replies = s.replies ++ answers
      ∧ answers.length = if e.isAccess then 1 else 0

/-- R31, R33, R52: what an event does to the block and what it is answered depend on L, V, ERR and CAUSE alone: not on
earlier answers, and not on anything the host presents later. -/
def Obligations.NoHiddenStateReachesTheHost : Prop :=
  ∀ (s s' t : State) (e : HostEvent) (rest rest' : List HostEvent),
    s.requests = e :: rest → s'.requests = e :: rest' → s.block = s'.block → step s = .next t →
    ∃ t' answers, step s' = .next t' ∧ t'.block = t.block
      ∧ t.replies = s.replies ++ answers ∧ t'.replies = s'.replies ++ answers

/-- R53: repeating an access at once leaves the block as the first left it, whatever the access, a CMD write of any word
included; a read never changes the block. -/
def Obligations.ImmediateRepeatChangesNothingFurther : Prop :=
  (∀ (s t : State) (e : HostEvent) (rest : List HostEvent), s.requests = e :: e :: rest → step s = .next t →
    ∃ u, step t = .next u ∧ u.block = t.block)
  ∧ (∀ (s t : State) (off : Offset) (n : Nat) (rest : List HostEvent), s.requests = .read off n :: rest →
      step s = .next t → t.block = s.block)

/-- R44, R52, R60, R179: if the host makes only defined accesses, no run ever stops, and after as many steps as it
presented events every one has been served and every access has its one answer.  That a run goes on past the last event
rests on log entry 4, and that each access is one step on log entry 15; both are DEDUCED. -/
def Obligations.EveryDefinedAccessIsServed : Prop :=
  ∀ s : State, s.WellDriven →
    (∀ k : Nat, ∃ t, run k s = .next t)
    ∧ ∃ t answers, run s.requests.length s = .next t ∧ t.requests = []
      ∧ t.replies = s.replies ++ answers
      ∧ answers.length = (s.requests.filter HostEvent.isAccess).length
end

