-- ==== Sys2Proof/Laws/Decode.lean ====
section
/-! SUPPORT. The fields of a command word: a word is its four fields, and what the decoder answers is a function of
them. -/

namespace Sys2Proof

/-- A word is its four fields (R70's bit picture). -/
theorem word_eq_fields (w : Word) : w = rsvField w ++ grpField w ++ rsv3Field w ++ opField w := by
  refine BitVec.eq_of_toNat_eq ?_
  have hw := w.isLt
  simp only [rsvField, grpField, rsv3Field, opField, BitVec.toNat_append, BitVec.extractLsb'_toNat,
    Nat.shiftRight_eq_div_pow, Nat.shiftLeft_eq]
  rw [← Nat.shiftLeft_eq, ← Nat.shiftLeft_eq, ← Nat.shiftLeft_eq,
    ← Nat.shiftLeft_add_eq_or_of_lt (by omega), ← Nat.shiftLeft_add_eq_or_of_lt (by omega),
    ← Nat.shiftLeft_add_eq_or_of_lt (by omega)]
  simp only [Nat.shiftLeft_eq]
  omega

/-- Two words with the same four fields are one word. -/
theorem word_ext_fields (w x : Word) (hop : opField w = opField x) (h3 : rsv3Field w = rsv3Field x)
    (hg : grpField w = grpField x) (hr : rsvField w = rsvField x) : w = x := by
  rw [word_eq_fields w, word_eq_fields x, hop, h3, hg, hr]

@[simp] theorem opField_encode (i : Instr) : opField (encode i) = i.opBits := by
  cases i with
  | packByte g => revert g; decide
  | unpackByte g => revert g; decide
  | nop => rfl
  | packInt => rfl
  | unpackInt => rfl

@[simp] theorem rsv3Field_encode (i : Instr) : rsv3Field (encode i) = 0 := by
  cases i with
  | packByte g => revert g; decide
  | unpackByte g => revert g; decide
  | nop => rfl
  | packInt => rfl
  | unpackInt => rfl

@[simp] theorem grpField_encode (i : Instr) : grpField (encode i) = i.grpBits := by
  cases i with
  | packByte g => revert g; decide
  | unpackByte g => revert g; decide
  | nop => rfl
  | packInt => rfl
  | unpackInt => rfl

@[simp] theorem rsvField_encode (i : Instr) : rsvField (encode i) = 0 := by
  cases i with
  | packByte g => revert g; decide
  | unpackByte g => revert g; decide
  | nop => rfl
  | packInt => rfl
  | unpackInt => rfl

end Sys2Proof
end

