-- ==== Sys2Proof/Laws/Operands.lean ====
section
/-! SUPPORT. What each datapath function gives, one lemma per function and view: the bits of a substituted byte, the
elements of packed carriers and of lane files, the bits of an unpacked value.  Later proofs cite these and unfold none of
the functions. -/

namespace Sys2Proof.Machine

/-! ### One carrier byte -/

/-- Bit 0 is the payload bit, the others are kept. -/
@[simp] theorem getLsbD_substituteLsb (x : Byte) (b : Bool) (k : Nat) :
    (substituteLsb x b).getLsbD k = if k = 0 then b else x.getLsbD k := by
  have hmask : ∀ k : Nat, (0xFE#8).getLsbD k = (decide (k < 8) && decide (k ≠ 0)) := by
    intro k
    by_cases hk : k < 8
    · interval_cases k <;> rfl
    · simp [hk, BitVec.getLsbD_of_ge _ _ (by omega : 8 ≤ k)]
  by_cases hk : k < 8
  · cases k with
    | zero => cases b <;> simp [substituteLsb]
    | succ n => simp [substituteLsb, hmask, hk]
  · rw [BitVec.getLsbD_of_ge _ _ (by omega)]
    simp [show k ≠ 0 by omega, BitVec.getLsbD_of_ge x k (by omega)]

/-- The payload bit of a substituted byte is the bit substituted. -/
@[simp] theorem payloadBit_substituteLsb (x : Byte) (b : Bool) : payloadBit (substituteLsb x b) = b := by
  rw [payloadBit, getLsbD_substituteLsb, if_pos rfl]

/-- Bits 7..1 are kept (R90 "preserving carrier[i]'s other 7 bits unchanged"). -/
@[simp] theorem substituteLsb_and_upper (x : Byte) (b : Bool) : substituteLsb x b &&& 0xFE#8 = x &&& 0xFE#8 := by
  refine BitVec.eq_of_getLsbD_eq fun k _ => ?_
  cases k <;> simp [BitVec.getLsbD_and]

/-- A second substitution overwrites the first. -/
@[simp] theorem substituteLsb_substituteLsb (x : Byte) (b b' : Bool) :
    substituteLsb (substituteLsb x b') b = substituteLsb x b := by
  refine BitVec.eq_of_getLsbD_eq fun k _ => ?_
  simp only [getLsbD_substituteLsb]
  split <;> rfl

/-- A one-bit field is its bit. -/
theorem extractLsb'_one {w : Nat} (v : BitVec w) (k : Nat) : v.extractLsb' k 1 = BitVec.ofBool (v.getLsbD k) := by
  refine BitVec.eq_of_getLsbD_eq fun i hi => ?_
  obtain rfl : i = 0 := by omega
  simp

/-- Substitution of bit `k` of a value, in the spec's words `(x & 0xFE) | zext_8(v[k])` (R90, R110). -/
theorem substituteLsb_getLsbD {w : Nat} (x : Byte) (v : BitVec w) (k : Nat) :
    substituteLsb x (v.getLsbD k) = (x &&& 0xFE#8) ||| (v.extractLsb' k 1).setWidth 8 := by
  rw [extractLsb'_one]
  rfl

/-! ### Carriers -/

@[simp] theorem getElem_packBits {w : Nat} (v : BitVec w) (carrier : Vector Byte w) (i : Nat) (h : i < w) :
    (packBits v carrier)[i] = substituteLsb carrier[i] (v.getLsbD (w - 1 - i)) := by
  simp [packBits]

@[simp] theorem getLsbD_unpackBits_msbFirst {w : Nat} (carrier : Vector Byte w) (k : Nat) (h : k < w) :
    (unpackBits .msbFirst carrier).getLsbD k = payloadBit (carrier[w - 1 - k]'(by omega)) := by
  have : w - (k + 1) = w - 1 - k := by omega
  simp [unpackBits, h, this]

@[simp] theorem getLsbD_unpackBits_lsbFirst {w : Nat} (carrier : Vector Byte w) (k : Nat) (h : k < w) :
    (unpackBits .lsbFirst carrier).getLsbD k = payloadBit carrier[k] := by
  simp [unpackBits, h]

@[simp] theorem getLsbD_rev8 (b : Byte) (k : Nat) (h : k < 8) : (rev8 b).getLsbD k = b.getLsbD (7 - k) := by
  simp [rev8, h]

/-! ### Groups and LANE words -/

@[simp] theorem getElem_groupLanes (g : LaneGroup) (lanes : Lanes) (i : Nat) (h : i < 8) :
    (groupLanes g lanes)[i] = lanes[8 * g.val + i] := by
  simp [groupLanes]

theorem getElem_withGroupLanes (g : LaneGroup) (carrier : Vector Byte 8) (lanes : Lanes) (j : Nat) (h : j < 32) :
    (withGroupLanes g carrier lanes)[j]
      = if j / 8 = g.val then carrier[j % 8]'(Nat.mod_lt _ (by decide)) else lanes[j] := by
  simp [withGroupLanes]

/-- What was written to a group is read back from it. -/
@[simp] theorem groupLanes_withGroupLanes (g : LaneGroup) (carrier : Vector Byte 8) (lanes : Lanes) :
    groupLanes g (withGroupLanes g carrier lanes) = carrier := by
  ext1 i hi
  have hdiv : (8 * g.val + i) / 8 = g.val := by omega
  have hmod : (8 * g.val + i) % 8 = i := by omega
  simp [getElem_withGroupLanes, hdiv, hmod]

theorem getElem_withLaneWord (k : Fin 8) (v : Word) (lanes : Lanes) (i : Nat) (h : i < 32) :
    (withLaneWord k v lanes)[i] = if i / 4 = k.val then v.extractLsb' (8 * (i % 4)) 8 else lanes[i] := by
  simp [withLaneWord]

/-- Byte `j` of a LANE word is its lane `j` (R47). -/
theorem extract_laneWordOf (k : Fin 8) (lanes : Lanes) (j : Nat) (h : j < 4) :
    (laneWordOf k lanes).extractLsb' (8 * j) 8 = lanes[4 * k.val + j] := by
  refine BitVec.eq_of_getLsbD_eq fun i hi => ?_
  have h8 : ¬ i + 8 < 8 := by omega
  have h16 : ¬ i + 16 < 8 := by omega
  have h24 : ¬ i + 24 < 8 := by omega
  interval_cases j <;>
    (simp only [laneWordOf, BitVec.getLsbD_extractLsb', BitVec.getLsbD_append, hi]
     simp [hi, Nat.add_comm, h8, h16, h24])

/-- A word is its four bytes. -/
theorem laneWordOf_withLaneWord (k : Fin 8) (v : Word) (lanes : Lanes) :
    laneWordOf k (withLaneWord k v lanes) = v := by
  have hbyte : ∀ j : Nat, j < 4 → (laneWordOf k (withLaneWord k v lanes)).extractLsb' (8 * j) 8
      = v.extractLsb' (8 * j) 8 := by
    intro j hj
    have hdiv : (4 * k.val + j) / 4 = k.val := by omega
    have hmod : (4 * k.val + j) % 4 = j := by omega
    rw [extract_laneWordOf k _ j hj, getElem_withLaneWord]
    simp [hdiv, hmod]
  refine BitVec.eq_of_getLsbD_eq fun i hi => ?_
  have := congrArg (fun x => x.getLsbD (i % 8)) (hbyte (i / 8) (by omega))
  simpa [BitVec.getLsbD_extractLsb', show i % 8 < 8 by omega, show 8 * (i / 8) + i % 8 = i by omega] using this

end Sys2Proof.Machine
end

