-- ==== Sys2Proof/Laws/State.lean ====
section
/-! SUPPORT. One lemma per field of State and per named update: a later proof cites these and unfolds no record update.
All are true by unfolding; setGroup's go through setLanes', because comparing a lane file with its update by rfl makes
Lean evaluate both. -/

namespace Sys2Proof.Machine

@[simp] theorem State.setValue_lanes (s : State) (v : Word) :
    (s.setValue v).lanes = s.lanes := rfl
@[simp] theorem State.setValue_value (s : State) (v : Word) :
    (s.setValue v).value = v := rfl
@[simp] theorem State.setValue_err (s : State) (v : Word) :
    (s.setValue v).err = s.err := rfl
@[simp] theorem State.setValue_cause (s : State) (v : Word) :
    (s.setValue v).cause = s.cause := rfl
@[simp] theorem State.setValue_requests (s : State) (v : Word) :
    (s.setValue v).requests = s.requests := rfl
@[simp] theorem State.setValue_replies (s : State) (v : Word) :
    (s.setValue v).replies = s.replies := rfl

@[simp] theorem State.setLanes_lanes (s : State) (lanes : Lanes) :
    (s.setLanes lanes).lanes = lanes := rfl
@[simp] theorem State.setLanes_value (s : State) (lanes : Lanes) :
    (s.setLanes lanes).value = s.value := rfl
@[simp] theorem State.setLanes_err (s : State) (lanes : Lanes) :
    (s.setLanes lanes).err = s.err := rfl
@[simp] theorem State.setLanes_cause (s : State) (lanes : Lanes) :
    (s.setLanes lanes).cause = s.cause := rfl
@[simp] theorem State.setLanes_requests (s : State) (lanes : Lanes) :
    (s.setLanes lanes).requests = s.requests := rfl
@[simp] theorem State.setLanes_replies (s : State) (lanes : Lanes) :
    (s.setLanes lanes).replies = s.replies := rfl

@[simp] theorem State.setGroup_lanes (s : State) (g : LaneGroup) (carrier : Vector Byte 8) :
    (s.setGroup g carrier).lanes = withGroupLanes g carrier s.lanes := by
  simp only [State.setGroup, State.setLanes_lanes]
@[simp] theorem State.setGroup_value (s : State) (g : LaneGroup) (carrier : Vector Byte 8) :
    (s.setGroup g carrier).value = s.value := by
  simp only [State.setGroup, State.setLanes_value]
@[simp] theorem State.setGroup_err (s : State) (g : LaneGroup) (carrier : Vector Byte 8) :
    (s.setGroup g carrier).err = s.err := by
  simp only [State.setGroup, State.setLanes_err]
@[simp] theorem State.setGroup_cause (s : State) (g : LaneGroup) (carrier : Vector Byte 8) :
    (s.setGroup g carrier).cause = s.cause := by
  simp only [State.setGroup, State.setLanes_cause]
@[simp] theorem State.setGroup_requests (s : State) (g : LaneGroup) (carrier : Vector Byte 8) :
    (s.setGroup g carrier).requests = s.requests := by
  simp only [State.setGroup, State.setLanes_requests]
@[simp] theorem State.setGroup_replies (s : State) (g : LaneGroup) (carrier : Vector Byte 8) :
    (s.setGroup g carrier).replies = s.replies := by
  simp only [State.setGroup, State.setLanes_replies]

@[simp] theorem State.setStatus_lanes (s : State) (e : BitVec 1) (c : BitVec 4) :
    (s.setStatus e c).lanes = s.lanes := rfl
@[simp] theorem State.setStatus_value (s : State) (e : BitVec 1) (c : BitVec 4) :
    (s.setStatus e c).value = s.value := rfl
@[simp] theorem State.setStatus_err (s : State) (e : BitVec 1) (c : BitVec 4) :
    (s.setStatus e c).err = e := rfl
@[simp] theorem State.setStatus_cause (s : State) (e : BitVec 1) (c : BitVec 4) :
    (s.setStatus e c).cause = c := rfl
@[simp] theorem State.setStatus_requests (s : State) (e : BitVec 1) (c : BitVec 4) :
    (s.setStatus e c).requests = s.requests := rfl
@[simp] theorem State.setStatus_replies (s : State) (e : BitVec 1) (c : BitVec 4) :
    (s.setStatus e c).replies = s.replies := rfl

@[simp] theorem State.cmdError_lanes (s : State) (new : CmdErrorCause) :
    (s.cmdError new).lanes = s.lanes := rfl
@[simp] theorem State.cmdError_value (s : State) (new : CmdErrorCause) :
    (s.cmdError new).value = s.value := rfl
@[simp] theorem State.cmdError_err (s : State) (new : CmdErrorCause) :
    (s.cmdError new).err = 1 := rfl
@[simp] theorem State.cmdError_cause (s : State) (new : CmdErrorCause) :
    (s.cmdError new).cause = causeAfter s.err s.cause new := rfl
@[simp] theorem State.cmdError_requests (s : State) (new : CmdErrorCause) :
    (s.cmdError new).requests = s.requests := rfl
@[simp] theorem State.cmdError_replies (s : State) (new : CmdErrorCause) :
    (s.cmdError new).replies = s.replies := rfl

@[simp] theorem State.resetBlock_lanes (s : State) :
    s.resetBlock.lanes = Vector.replicate 32 0x00#8 := rfl
@[simp] theorem State.resetBlock_value (s : State) :
    s.resetBlock.value = 0x00000000#32 := rfl
@[simp] theorem State.resetBlock_err (s : State) :
    s.resetBlock.err = 0#1 := rfl
@[simp] theorem State.resetBlock_cause (s : State) :
    s.resetBlock.cause = 0#4 := rfl
@[simp] theorem State.resetBlock_requests (s : State) :
    s.resetBlock.requests = s.requests := rfl
@[simp] theorem State.resetBlock_replies (s : State) :
    s.resetBlock.replies = s.replies := rfl

@[simp] theorem State.answer_lanes (s : State) (r : Reply) :
    (s.answer r).lanes = s.lanes := rfl
@[simp] theorem State.answer_value (s : State) (r : Reply) :
    (s.answer r).value = s.value := rfl
@[simp] theorem State.answer_err (s : State) (r : Reply) :
    (s.answer r).err = s.err := rfl
@[simp] theorem State.answer_cause (s : State) (r : Reply) :
    (s.answer r).cause = s.cause := rfl
@[simp] theorem State.answer_requests (s : State) (r : Reply) :
    (s.answer r).requests = s.requests := rfl
@[simp] theorem State.answer_replies (s : State) (r : Reply) :
    (s.answer r).replies = s.replies ++ [r] := rfl

@[simp] theorem State.present_lanes (s : State) (es : List HostEvent) :
    (s.present es).lanes = s.lanes := rfl
@[simp] theorem State.present_value (s : State) (es : List HostEvent) :
    (s.present es).value = s.value := rfl
@[simp] theorem State.present_err (s : State) (es : List HostEvent) :
    (s.present es).err = s.err := rfl
@[simp] theorem State.present_cause (s : State) (es : List HostEvent) :
    (s.present es).cause = s.cause := rfl
@[simp] theorem State.present_requests (s : State) (es : List HostEvent) :
    (s.present es).requests = s.requests ++ es := rfl
@[simp] theorem State.present_replies (s : State) (es : List HostEvent) :
    (s.present es).replies = s.replies := rfl

@[simp] theorem State.block_lanes (s : State) : s.block.lanes = s.lanes := rfl
@[simp] theorem State.block_value (s : State) : s.block.value = s.value := rfl
@[simp] theorem State.block_err (s : State) : s.block.err = s.err := rfl
@[simp] theorem State.block_cause (s : State) : s.block.cause = s.cause := rfl

/-- The host's two queues are no part of the block (R33). -/
@[simp] theorem State.answer_block (s : State) (r : Reply) : (s.answer r).block = s.block := rfl
@[simp] theorem State.present_block (s : State) (es : List HostEvent) : (s.present es).block = s.block := rfl

/-- Two states with the same block agree in each of its four items. -/
theorem State.block_eq_iff (s t : State) :
    s.block = t.block ↔ s.lanes = t.lanes ∧ s.value = t.value ∧ s.err = t.err ∧ s.cause = t.cause := by
  simp [State.block]

end Sys2Proof.Machine
end

