-- ==== Sys2Proof/Laws/Ops.lean ====
section
/-! SUPPORT. What each shared operation can do, said once: the legality of an access, a STATUS write, a register read, a
command, a discarded word, a register write, and the window at P_BASE. -/

namespace Sys2Proof.Machine

/-- Inside the window, only width and alignment can make an access illegal (R44, R141). -/
@[simp] theorem legalAccess_iff (off : Offset) (n : Nat) :
    legalAccess off.val n = true ↔ n = 4 ∧ off.val % 4 = 0 := by
  simp [legalAccess]

/-- The LANE registers' offsets (R41). -/
@[simp] theorem regAt_laneOffset (k : Fin 8) (h : 0x20 + 4 * k.val < 64) : regAt ⟨0x20 + 4 * k.val, h⟩ = .lane k := by
  revert k
  decide

/-- A STATUS write either clears both flags or changes nothing (R26). -/
theorem writeStatus_cases (s : State) (v : Word) :
    (v.getLsbD 0 = true ∧ s.writeStatus v = s.setStatus 0 0) ∨ (v.getLsbD 0 = false ∧ s.writeStatus v = s) := by
  cases h : v.getLsbD 0
  · exact .inr ⟨rfl, by rw [State.writeStatus, clearsError, h, if_neg (by decide)]⟩
  · exact .inl ⟨rfl, by rw [State.writeStatus, clearsError, h, if_pos rfl]⟩

/-- The registers read from the block alone (R45). -/
theorem regReadAs_of_block (order : BitOrder) (r : Reg) (s t : State) (h : s.block = t.block) :
    regReadAs order r s = regReadAs order r t := by
  obtain ⟨hl, hv, he, hc⟩ := (State.block_eq_iff s t).1 h
  cases r <;> simp [regReadAs, hl, hv, he, hc]

/-! ### The commands -/

@[simp] theorem exec_nop (s : State) : exec .nop s = .next s := rfl

@[simp] theorem exec_packByte (g : LaneGroup) (s : State) :
    exec (.packByte g) s = .next (s.setGroup g (pack8 (s.value.extractLsb' 0 8) (groupLanes g s.lanes))) := rfl

@[simp] theorem exec_unpackByte (g : LaneGroup) (s : State) :
    exec (.unpackByte g) s = .next (s.setValue ((unpack8 .msbFirst (groupLanes g s.lanes)).setWidth 32)) := rfl

@[simp] theorem exec_packInt (s : State) : exec .packInt s = .next (s.setLanes (pack32 s.value s.lanes)) := rfl

@[simp] theorem exec_unpackInt (s : State) : exec .unpackInt s = .next (s.setValue (unpack32 s.lanes)) := rfl

/-- Every command goes on from every state, and writes lanes or VALUE only: never a flag (R29), never the host's queues. -/
theorem exec_spec (i : Instr) (s : State) :
    ∃ (lanes : Lanes) (v : Word), exec i s = .next { s with lanes := lanes, value := v } := by
  cases i with
  | nop => exact ⟨s.lanes, s.value, rfl⟩
  | packByte g => exact ⟨_, s.value, rfl⟩
  | unpackByte g => exact ⟨s.lanes, _, rfl⟩
  | packInt => exact ⟨_, s.value, rfl⟩
  | unpackInt => exact ⟨s.lanes, _, rfl⟩

/-- What a command does is a function of L and V alone: it computes the same new L and V from any two states that agree
there. -/
theorem exec_of_lanes_value (i : Instr) (s t : State) (hl : s.lanes = t.lanes) (hv : s.value = t.value) :
    ∃ (lanes : Lanes) (v : Word), exec i s = .next { s with lanes := lanes, value := v }
      ∧ exec i t = .next { t with lanes := lanes, value := v } := by
  obtain ⟨sl, sv, se, sc, sq, sr⟩ := s
  obtain ⟨tl, tv, te, tc, tq, tr⟩ := t
  subst hl hv
  cases i <;> exact ⟨_, _, rfl, rfl⟩

/-! ### CMD and register writes -/

/-- A word written to CMD performs a command or is discarded (R75). -/
theorem execute_cases (w : Word) (s : State) :
    (∃ i, decode w = .command i ∧ execute w s = exec i s)
    ∨ (∃ cause, decode w = .discarded cause ∧ execute w s = .next (s.cmdError cause)) := by
  cases h : decode w with
  | command i => exact .inl ⟨i, rfl, by rw [execute, h]⟩
  | discarded cause => exact .inr ⟨cause, rfl, by rw [execute, h]⟩

@[simp] theorem regWrite_cmd (v : Word) (s : State) : regWrite .cmd v s = execute v s := rfl
@[simp] theorem regWrite_status (v : Word) (s : State) : regWrite .status v s = .next (s.writeStatus v) := rfl
@[simp] theorem regWrite_value (v : Word) (s : State) : regWrite .value v s = .next (s.setValue v) := rfl
@[simp] theorem regWrite_id (v : Word) (s : State) : regWrite .id v s = .next s := rfl
@[simp] theorem regWrite_cfg (v : Word) (s : State) : regWrite .cfg v s = .next s := rfl
@[simp] theorem regWrite_reserved (j : Fin 3) (v : Word) (s : State) : regWrite (.reserved j) v s = .next s := rfl
@[simp] theorem regWrite_lane (k : Fin 8) (v : Word) (s : State) :
    regWrite (.lane k) v s = .next (s.setLanes (withLaneWord k v s.lanes)) := rfl

/-- A register write goes on from every state, and never touches the host's queues. -/
theorem regWrite_spec (r : Reg) (v : Word) (s : State) :
    ∃ t, regWrite r v s = .next t ∧ t.requests = s.requests ∧ t.replies = s.replies := by
  cases r with
  | cmd =>
    rw [regWrite_cmd]
    obtain ⟨i, -, h⟩ | ⟨cause, -, h⟩ := execute_cases v s
    · obtain ⟨lanes, x, hx⟩ := exec_spec i s
      exact ⟨_, h.trans hx, rfl, rfl⟩
    · exact ⟨_, h, State.cmdError_requests s cause, State.cmdError_replies s cause⟩
  | status =>
    obtain ⟨-, h⟩ | ⟨-, h⟩ := writeStatus_cases s v <;> rw [regWrite_status, h] <;> simp
  | value => simp
  | id => simp
  | cfg => simp
  | reserved j => simp
  | lane k => simp

/-- What a register write does to the block is a function of the block (R31). -/
theorem regWrite_of_block (r : Reg) (v : Word) (s s' t : State) (h : s.block = s'.block)
    (ht : regWrite r v s = .next t) :
    ∃ t', regWrite r v s' = .next t' ∧ t'.block = t.block := by
  obtain ⟨hl, hv, he, hc⟩ := (State.block_eq_iff s s').1 h
  cases r with
  | cmd =>
    rw [regWrite_cmd] at ht ⊢
    cases hd : decode v with
    | command i =>
      obtain ⟨lanes, x, h1, h2⟩ := exec_of_lanes_value i s s' hl hv
      rw [execute, hd] at ht ⊢
      cases h1.symm.trans ht
      exact ⟨_, h2, by simp [State.block, he, hc]⟩
    | discarded cause =>
      rw [execute, hd] at ht ⊢
      cases ht
      exact ⟨_, rfl, by simp [State.block, hl, hv, he, hc]⟩
  | status =>
    rw [regWrite_status] at ht ⊢
    cases ht
    refine ⟨_, rfl, ?_⟩
    obtain ⟨h0, h1⟩ | ⟨h0, h1⟩ := writeStatus_cases s v <;> obtain ⟨k0, k1⟩ | ⟨k0, k1⟩ := writeStatus_cases s' v
    · simp [h1, k1, State.block, hl, hv]
    · exact absurd (h0.symm.trans k0) (by decide)
    · exact absurd (h0.symm.trans k0) (by decide)
    · rw [h1, k1, h]
  | value => cases ht; exact ⟨_, rfl, by simp [State.block, hl, he, hc]⟩
  | id => cases ht; exact ⟨_, rfl, h.symm⟩
  | cfg => cases ht; exact ⟨_, rfl, h.symm⟩
  | reserved j => cases ht; exact ⟨_, rfl, h.symm⟩
  | lane k =>
    rw [regWrite_lane] at ht ⊢
    obtain rfl := Host.Outcome.next.inj ht
    exact ⟨_, rfl, by simp [State.block, hl, hv, he, hc]⟩

/-! ### The window -/

/-- The block sees offset `off` of the host address `P_BASE + off`, and of no other (R42). -/
theorem windowOffset_eq_some_iff (pBase addr : Nat) (off : Offset) :
    windowOffset pBase addr = some off ↔ addr = pBase + off.val := by
  unfold windowOffset
  split
  · simp only [Option.some.injEq, Fin.ext_iff]
    omega
  · simp only [reduceCtorEq, false_iff]
    omega

/-- The addresses that never reach the block (R42). -/
theorem windowOffset_eq_none_iff (pBase addr : Nat) :
    windowOffset pBase addr = none ↔ addr < pBase ∨ pBase + 64 ≤ addr := by
  unfold windowOffset
  split
  · simp only [reduceCtorEq, false_iff]
    omega
  · simp only [true_iff]
    omega

/-- A read inside the window arrives at its offset, behind what is already at the port (R42, R52). -/
theorem presentRead_of_offset (s : State) (pBase addr n : Nat) (off : Offset) (h : windowOffset pBase addr = some off) :
    s.presentRead pBase addr n = s.present [.read off n] := by
  rw [State.presentRead, h]

/-- A write inside the window, likewise. -/
theorem presentWrite_of_offset (s : State) (pBase addr n : Nat) (v : Word) (off : Offset)
    (h : windowOffset pBase addr = some off) : s.presentWrite pBase addr n v = s.present [.write off n v] := by
  rw [State.presentWrite, h]

end Sys2Proof.Machine
end

