-- ==== Sys2Proof/Laws/Step.lean ====
section
/-! SUPPORT. What a step can do, said once: it serves the first event of the host's sequence.  Claims about steps and
runs are derived from `step_cases`, and never unfold `step`. -/

namespace Sys2Proof.Machine

@[simp] theorem onNext_next (f : State → State) (s : State) : onNext f (.next s) = .next (f s) := rfl

/-- With nothing presented, nothing changes. -/
theorem step_of_nil (s : State) (h : s.requests = []) : step s = .next s := by
  rw [step, serveNext, h]

/-- With an event presented, the step serves it, and it is gone from the sequence. -/
theorem step_of_cons (s : State) (e : HostEvent) (rest : List HostEvent) (h : s.requests = e :: rest) :
    step s = serve e { s with requests := rest } := by
  rw [step, serveNext, h]

/-- A legal read answers the register's contents and does nothing else (R44, R45). -/
theorem serve_read (off : Offset) (n : Nat) (s : State) (h : n = 4 ∧ off.val % 4 = 0) :
    serve (.read off n) s = .next (s.answer (.data (regRead (regAt off) s))) := by
  rw [serve, memRead, if_pos ((legalAccess_iff off n).2 h)]

/-- A legal write does what the register's write does, and completes (R44, R46). -/
theorem serve_write (off : Offset) (n : Nat) (v : Word) (s : State) (h : n = 4 ∧ off.val % 4 = 0) :
    serve (.write off n v) s = onNext (fun t => t.answer .done) (regWrite (regAt off) v s) := by
  rw [serve, memWrite, if_pos ((legalAccess_iff off n).2 h)]

/-- An illegal read is a BusError (R44). -/
theorem serve_read_illegal (off : Offset) (n : Nat) (s : State) (h : ¬ (n = 4 ∧ off.val % 4 = 0)) :
    serve (.read off n) s = .fault (.busError off n .read) := by
  rw [serve, memRead, if_neg (fun k => h ((legalAccess_iff off n).1 k))]

/-- An illegal write is a BusError (R44). -/
theorem serve_write_illegal (off : Offset) (n : Nat) (v : Word) (s : State) (h : ¬ (n = 4 ∧ off.val % 4 = 0)) :
    serve (.write off n v) s = .fault (.busError off n .write) := by
  rw [serve, memWrite, if_neg (fun k => h ((legalAccess_iff off n).1 k))]

/-- Everything a step that goes on can have done. -/
theorem step_cases (s t : State) (h : step s = .next t) :
    (s.requests = [] ∧ t = s)
    ∨ (∃ rest, s.requests = .reset :: rest ∧ t = ({ s with requests := rest } : State).resetBlock)
    ∨ (∃ off n rest, s.requests = .read off n :: rest ∧ n = 4 ∧ off.val % 4 = 0
        ∧ t = ({ s with requests := rest } : State).answer (.data (regRead (regAt off) s)))
    ∨ (∃ off n v rest u, s.requests = .write off n v :: rest ∧ n = 4 ∧ off.val % 4 = 0
        ∧ regWrite (regAt off) v { s with requests := rest } = .next u ∧ t = u.answer .done) := by
  cases hq : s.requests with
  | nil =>
    rw [step_of_nil s hq] at h
    cases h
    exact .inl ⟨rfl, rfl⟩
  | cons e rest =>
    rw [step_of_cons s e rest hq] at h
    cases e with
    | reset =>
      cases h
      exact .inr (.inl ⟨rest, rfl, rfl⟩)
    | read off n =>
      by_cases hk : n = 4 ∧ off.val % 4 = 0
      · rw [serve_read off n _ hk] at h
        cases h
        refine .inr (.inr (.inl ⟨off, n, rest, rfl, hk.1, hk.2, ?_⟩))
        congr 2
      · rw [serve_read_illegal off n _ hk] at h
        cases h
    | write off n v =>
      by_cases hk : n = 4 ∧ off.val % 4 = 0
      · rw [serve_write off n v _ hk] at h
        obtain ⟨u, hu, -, -⟩ := regWrite_spec (regAt off) v { s with requests := rest }
        rw [hu, onNext_next] at h
        cases h
        exact .inr (.inr (.inr ⟨off, n, v, rest, u, rfl, hk.1, hk.2, hu, rfl⟩))
      · rw [serve_write_illegal off n v _ hk] at h
        cases h

/-- A step goes on unless the first access is illegal. -/
theorem step_next_of_defined (s : State) (h : ∀ e rest, s.requests = e :: rest → e.defined = true) :
    ∃ t, step s = .next t := by
  cases hq : s.requests with
  | nil => exact ⟨s, step_of_nil s hq⟩
  | cons e rest =>
    have he := h e rest hq
    rw [step_of_cons s e rest hq]
    cases e with
    | reset => exact ⟨_, rfl⟩
    | read off n => exact ⟨_, serve_read off n _ ((legalAccess_iff off n).1 he)⟩
    | write off n v =>
      obtain ⟨u, hu, -, -⟩ := regWrite_spec (regAt off) v { s with requests := rest }
      exact ⟨_, by rw [serve_write off n v _ ((legalAccess_iff off n).1 he), hu, onNext_next]⟩

/-- A run of no steps is where it starts. -/
@[simp] theorem run_zero (s : State) : run 0 s = .next s := rfl

/-- A run of `k + 1` steps whose first goes on is a run of `k` from there. -/
theorem run_succ_of_next (k : Nat) (s t : State) (h : step s = .next t) : run (k + 1) s = run k t := by
  rw [run, h]

/-- A run that went on took a first step that went on. -/
theorem run_succ_cases (k : Nat) (s t : State) (h : run (k + 1) s = .next t) :
    ∃ u, step s = .next u ∧ run k u = .next t := by
  rw [run] at h
  cases hst : step s with
  | next u => exact ⟨u, rfl, by rw [hst] at h; exact h⟩
  | fault r => rw [hst] at h; cases h
  | refused r => rw [hst] at h; cases h

/-- The runs claims speak of are the host's runs of the machine. -/
theorem run_eq_core (k : Nat) : ∀ s : State, run k s = Host.Core.run core k s := by
  induction k with
  | zero => exact fun _ => rfl
  | succ k ih =>
    intro s
    have hrun := Host.Core.run.eq_def core (k + 1) s
    simp only at hrun
    refine Eq.trans ?_ hrun.symm
    have hcore : core.step s = step s := rfl
    rw [hcore, run]
    cases step s with
    | next t => exact ih t
    | fault r => rfl
    | refused r => rfl

/-- Package of the induction over runs: what holds of a state and is kept by every step holds after every run. -/
theorem run_induction (P : State → Prop) (hstep : ∀ s t, P s → step s = .next t → P t) :
    ∀ (k : Nat) (s t : State), P s → run k s = .next t → P t := by
  intro k
  induction k with
  | zero =>
    intro s t hs h
    cases h
    exact hs
  | succ k ih =>
    intro s t hs h
    obtain ⟨u, hu, hr⟩ := run_succ_cases k s t h
    exact ih u t (hstep s u hs hu) hr

end Sys2Proof.Machine
end

