-- ==== Sys2Proof/Laws/PerInstr.lean ====
section
/-! SUPPORT. Facts about every instruction as syntax, one lemma per constructor. -/

namespace Sys2Proof.Laws.EncodesLegally

/-- The instruction's word is legal (R72). -/
def Statement (i : Instr) : Prop := legalCmd (encode i) = true

theorem nop : Statement .nop := by unfold Statement; decide
theorem packByte (g : LaneGroup) : Statement (.packByte g) := by revert g; unfold Statement; decide
theorem unpackByte (g : LaneGroup) : Statement (.unpackByte g) := by revert g; unfold Statement; decide
theorem packInt : Statement .packInt := by unfold Statement; decide
theorem unpackInt : Statement .unpackInt := by unfold Statement; decide

end Sys2Proof.Laws.EncodesLegally

namespace Sys2Proof.Laws.EncodesInItsRow

/-- The row of the opcode table with the instruction's mnemonic accepts the instruction's word (R78). -/
def Statement (i : Instr) : Prop := ∃ r ∈ opcodeTable, r.mnemonic = i.mnemonic ∧ r.accepts (encode i) = true

theorem nop : Statement .nop := by unfold Statement; decide
theorem packByte (g : LaneGroup) : Statement (.packByte g) := by revert g; unfold Statement; decide
theorem unpackByte (g : LaneGroup) : Statement (.unpackByte g) := by revert g; unfold Statement; decide
theorem packInt : Statement .packInt := by unfold Statement; decide
theorem unpackInt : Statement .unpackInt := by unfold Statement; decide

end Sys2Proof.Laws.EncodesInItsRow
end

