-- ==== Sys2Proof/Tests/Slice0.lean ====
section
/-! SUPPORT. Tests whose expected results are the spec's: words written out from spec/30_encoding.md, vectors of
spec/95_test_vectors.md (cited by id); and, for every statement with hypotheses, a witness that meets them all. -/

namespace Sys2Proof.Tests

open Sys2Proof.Machine

/-! ### Helpers -/

/-- Whether a step went on to a state with a property. -/
def nextIs (p : State → Bool) : Host.Outcome State Fault Refusal → Bool
  | .next t => p t
  | .fault _ => false
  | .refused _ => false

/-- Whether a step stopped with this fault. -/
def faultIs (f : Fault) : Host.Outcome State Fault Refusal → Bool
  | .next _ => false
  | .fault g => f == g
  | .refused _ => false

/-- Reset, with eight carrier bytes in a group and a value in V. -/
def withGroup (g : LaneGroup) (carrier : Vector Byte 8) (v : Word) : State :=
  (State.reset.setGroup g carrier).setValue v

/-- Reset, with every lane holding one byte and a value in V. -/
def withFill (b : Byte) (v : Word) : State := (State.reset.setLanes (Vector.replicate 32 b)).setValue v

/-- Reset, with one event presented. -/
def given (e : HostEvent) : State := State.reset.present [e]

/-! ### Decoding: words written out bit by bit (R70, R71, R74) -/

theorem test_decode_nop : decode 0b00000000000000000000000000000000#32 = .command .nop := by decide
theorem test_decode_packByte : decode 0b00000000000000000000000000100001#32 = .command (.packByte 2) := by decide
theorem test_decode_packByte3 : decode 0b00000000000000000000000000110001#32 = .command (.packByte 3) := by decide
theorem test_decode_unpackByte : decode 0b00000000000000000000000000010010#32 = .command (.unpackByte 1) := by decide
theorem test_decode_unpackByte0 : decode 0b00000000000000000000000000000010#32 = .command (.unpackByte 0) := by decide
theorem test_decode_packInt : decode 0b00000000000000000000000000000011#32 = .command .packInt := by decide
theorem test_decode_unpackInt : decode 0b00000000000000000000000000000100#32 = .command .unpackInt := by decide
/-- E3, E6: OP 5 to 7 are ILLEGAL_OP, whatever else is set. -/
theorem test_decode_illegalOp :
    decode 0x00000007 = .discarded .illegalOp ∧ decode 0x00000045 = .discarded .illegalOp := by decide
/-- E4, E7, E9, E11. -/
theorem test_decode_reservedField :
    decode 0x00000008 = .discarded .reservedField ∧ decode 0x00000010 = .discarded .reservedField
      ∧ decode 0x80000001 = .discarded .reservedField ∧ decode 0x00000034 = .discarded .reservedField := by decide
theorem test_encode_packByte : encode (.packByte 3) = 0x00000031 := by decide
theorem test_tableWord : decodeTableWord 32 0x22 = some (.unpackByte 2) ∧ decodeTableWord 32 6 = none := by decide

/-! ### Well-formedness: an ill-formed term for each conjunct of R72 and of R44 -/

theorem test_legalCmd_accepts : legalCmd 0x00000032 = true := by decide
theorem test_legalCmd_refuses_op : legalCmd 0x00000005 = false := by decide
theorem test_legalCmd_refuses_bit3 : legalCmd 0x00000009 = false := by decide
theorem test_legalCmd_refuses_high : legalCmd 0x80000001 = false := by decide
theorem test_legalCmd_refuses_grp : legalCmd 0x00000013 = false := by decide
theorem test_legalAccess_accepts : legalAccess 0x3C 4 = true := by decide
theorem test_legalAccess_refuses_width : legalAccess 0x08 1 = false := by decide
theorem test_legalAccess_refuses_alignment : legalAccess 0x22 4 = false := by decide
theorem test_legalAccess_refuses_outside : legalAccess 0x40 4 = false := by decide

/-! ### The commands, one step each -/

/-- C-N1. -/
theorem test_nop : nextIs (fun t => t == (withFill 0xFE 0x48).setStatus 1 2) (exec .nop ((withFill 0xFE 0x48).setStatus 1 2)) := by
  decide
/-- B-P5. -/
theorem test_packByte_mixed :
    nextIs (fun t => groupLanes 0 t.lanes == #v[0x11, 0x10, 0x13, 0x12, 0x14, 0x15, 0x16, 0x17] && t.value == 0x000000A5)
      (exec (.packByte 0) (withGroup 0 #v[0x10, 0x11, 0x12, 0x13, 0x14, 0x15, 0x16, 0x17] 0x000000A5)) := by decide
/-- B-P7: group 3, with LANE6 and LANE7 as the host reads them; lanes 0..23 stay 00. -/
theorem test_packByte_group3 :
    nextIs (fun t => regRead (.lane 6) t == 0x82828180 && regRead (.lane 7) t == 0x87868485 && regRead (.lane 5) t == 0)
      (exec (.packByte 3) (withGroup 3 #v[0x80, 0x81, 0x82, 0x83, 0x84, 0x85, 0x86, 0x87] 0x00000049)) := by decide
/-- B-U2: bits 7..1 ignored, V[31:8] cleared. -/
theorem test_unpackByte :
    nextIs (fun t => t.value == 0x00000049)
      (exec (.unpackByte 0) (withGroup 0 #v[0xFE, 0x01, 0x7E, 0x80, 0x3F, 0xC2, 0x00, 0x55] 0xDEADBEEF)) := by decide
/-- B-U5, on an LSB_FIRST build. -/
theorem test_unpackByte_lsbFirst :
    nextIs (fun t => t.value == 0x00000080)
      (execUnpackByteAs .lsbFirst 0 (withGroup 0 #v[0, 0, 0, 0, 0, 0, 0, 1] 0)) := by decide
/-- I-P1: LANE7 reads 0x00000100. -/
theorem test_packInt : nextIs (fun t => regRead (.lane 7) t == 0x00000100 && regRead (.lane 0) t == 0) (exec .packInt (withFill 0 4)) := by
  decide
/-- I-P6: LANE6 and LANE7. -/
theorem test_packInt_fill :
    nextIs (fun t => regRead (.lane 6) t == 0xFEFEFEFE && regRead (.lane 7) t == 0xFEFFFEFE) (exec .packInt (withFill 0xFF 2)) := by
  decide
/-- I-U1. -/
theorem test_unpackInt :
    nextIs (fun t => t.value == 0x00000005)
      (exec .unpackInt (withGroup 3 #v[0, 0, 0, 0, 0, 0x01, 0, 0xFF] 0xCAFEBABE)) := by decide +kernel
/-- I-U4: only bit 0 counts. -/
theorem test_unpackInt_fill : nextIs (fun t => t.value == 0xFFFFFFFF) (exec .unpackInt (withFill 0x55 0xCAFEBABE)) := by decide +kernel

/-! ### Register accesses and errors, one step each -/

/-- E5: the bad PACK_INT of program P3. -/
theorem test_discard : nextIs (fun t => regRead .status t == 0x00000021 && t.replies == [.done]) (step (given (wr .cmd 0x13))) := by
  decide
/-- E13: the first error wins. -/
theorem test_first_error_wins :
    nextIs (fun t => regRead .status t == 0x00000021) (step ((given (wr .cmd 0x05)).setStatus 1 2)) := by decide
/-- E15: bit 0 clear, so no effect. -/
theorem test_status_keeps :
    nextIs (fun t => regRead .status t == 0x00000021) (step ((given (wr .status 0xFFFFFFFE)).setStatus 1 2)) := by decide
/-- E16: write 1 to clear. -/
theorem test_status_clears : nextIs (fun t => regRead .status t == 0) (step ((given clrErr).setStatus 1 2)) := by decide
/-- A1, A2: ID and CFG. -/
theorem test_read_id : nextIs (fun t => t.replies == [.data 0x4C534201]) (step (given (.read 0x0C 4))) := by decide
theorem test_read_cfg : nextIs (fun t => t.replies == [.data 0x00000020]) (step (given (.read 0x10 4))) := by decide
/-- P1, step 1: LANE0 takes four carrier bytes, little-endian. -/
theorem test_write_lane :
    nextIs (fun t => t.lanes[0] == 0x10 && t.lanes[3] == 0x13) (step (given (wr (.lane 0) 0x13121110))) := by decide
/-- The host's word runs first after reset: PACK_BYTE 1 on zero lanes with V = 0. -/
theorem test_withFetchWord :
    nextIs (fun t => t.replies == [.done] && t.requests == []) (step (State.reset.withFetchWord 32 0x11)) := by decide

/-! ### Witnesses: states and operands that meet the hypotheses of each statement -/

theorem test_witness_OneTableRow :
    decode 0x31 = .command (.packByte 3) ∧ decode 0x05 = .discarded .illegalOp := by decide
theorem test_witness_ExactlyEleven :
    5 ≤ ((0x05#32).extractLsb' 0 3).toNat ∧ 5 ≤ ((0x07#32).extractLsb' 0 3).toNat ∧ 0x08#32 ∉ legalWords := by decide
theorem test_witness_RegisterMap :
    (0x00 : Offset).val % 4 = 0 ∧ (0x1C : Offset).val % 4 = 0 ∧ (0x20 : Offset).val % 4 = 0 ∧ (0x3C : Offset).val % 4 = 0 := by
  decide
theorem test_witness_StepRuns : decode 0x03 = .command .packInt ∧ decode 0x32 = .command (.unpackByte 3) := by decide
/-- Both causes, and a state in which an error is already recorded. -/
theorem test_witness_Discarded :
    legalCmd 0x05 = false ∧ legalCmd 0x08 = false ∧ State.reset.err = 0 ∧ (State.reset.setStatus 1 2).err ≠ 0 := by decide
theorem test_witness_Nop : (0x08#32).extractLsb' 0 3 = 0 ∧ 0x08#32 ≠ 0 := by decide
theorem test_witness_PackByte :
    ((1 : Fin 32).val / 8 ≠ (3 : LaneGroup).val)
      ∧ (0x09#32).extractLsb' 0 3 = 1 ∧ (0x09#32).extractLsb' 3 1 ≠ 0
      ∧ (0x41#32).extractLsb' 0 3 = 1 ∧ (0x41#32).extractLsb' 6 26 ≠ 0 := by decide
theorem test_witness_UnpackByte :
    (0x0A#32).extractLsb' 0 3 = 2 ∧ (0x0A#32).extractLsb' 3 1 ≠ 0
      ∧ (0x80000002#32).extractLsb' 0 3 = 2 ∧ (0x80000002#32).extractLsb' 6 26 ≠ 0 := by decide
theorem test_witness_PackInt : (0x13#32).extractLsb' 0 3 = 3 ∧ (0x13#32) ≠ 3 := by decide
theorem test_witness_UnpackInt : (0x24#32).extractLsb' 0 3 = 4 ∧ (0x24#32) ≠ 4 := by decide
/-- Lane 24 is the first of group 3, and PACK_BYTE 3 changes its bit 0 here. -/
theorem test_witness_BytePackKeepsUpperBits :
    nextIs (fun t => t.lanes[24].getLsbD 0 != (withFill 0 0x80).lanes[24].getLsbD 0) (exec (.packByte 3) (withFill 0 0x80)) := by
  decide
theorem test_witness_ByteUnpackReadsOnlyBitZero :
    (∀ i : Fin 8, (Vector.replicate 8 0xFF#8)[i].getLsbD 0 = (Vector.replicate 8 0x01#8)[i].getLsbD 0)
      ∧ Vector.replicate 8 0xFF#8 ≠ Vector.replicate 8 0x01#8 := by decide
/-- A6 to A9, and an 8-byte access: width and alignment, in both directions. -/
theorem test_witness_BusError :
    faultIs (.busError 0x08 1 .write) (step (given (.write 0x08 1 0)))
      ∧ faultIs (.busError 0x02 4 .read) (step (given (.read 0x02 4)))
      ∧ faultIs (.busError 0x22 4 .write) (step (given (.write 0x22 4 0)))
      ∧ faultIs (.busError 0x00 2 .write) (step (given (.write 0x00 2 1)))
      ∧ faultIs (.busError 0x38 8 .read) (step (given (.read 0x38 8))) := by decide
/-- A read and a write arrive at the window's last word and first address, behind what is at the port (R42, R52). -/
theorem test_present_inside :
    ((given .reset).presentRead 0x1000 0x103C 4).requests = [.reset, .read 0x3C 4]
      ∧ ((given .reset).presentWrite 0x1000 0x1000 4 0x31).requests = [.reset, .write 0x00 4 0x31] := by decide
/-- An access just below or just above the window never arrives (R42). -/
theorem test_present_outside :
    ((given .reset).presentRead 0x1000 0xFFC 4).requests = [.reset]
      ∧ ((given .reset).presentWrite 0x1000 0x1040 4 0x31).requests = [.reset] := by decide
/-- The first and the last address of a window, and the addresses beside it. -/
theorem test_witness_Window :
    Config.legalPBase 0x1000 = true ∧ 0x1000 / 64 = 0x1000 / 64 ∧ 0x103F / 64 = 0x1000 / 64 ∧ windowOffset 0x1000 0x1000 = some 0x00 ∧ windowOffset 0x1000 0x103F = some 0x3F
      ∧ 0xFFF / 64 ≠ 0x1000 / 64 ∧ 0x1040 / 64 ≠ 0x1000 / 64 := by decide
theorem test_witness_StepKeepsStatusInvariant :
    (given (wr .cmd 0x05)).StatusInv ∧ nextIs (fun t => t.err == 1) (step (given (wr .cmd 0x05))) :=
  ⟨⟨by decide, by decide⟩, by decide⟩
/-- One step for each case: nothing, reset, a clear, a discard with ERR clear and one with ERR set. -/
theorem test_witness_FlagsChange :
    nextIs (fun t => t.err == 1 && t.cause == 2) (step ((given (cmd .nop)).setStatus 1 2))
      ∧ nextIs (fun t => t.err == 0 && t.cause == 0) (step ((given .reset).setStatus 1 2))
      ∧ nextIs (fun t => t.err == 0 && t.cause == 0) (step ((given (wr .status 0xFFFFFFFF)).setStatus 1 2))
      ∧ nextIs (fun t => t.err == 1 && t.cause == 1) (step (given (wr .cmd 0x06)))
      ∧ nextIs (fun t => t.err == 1 && t.cause == 2) (step ((given (wr .cmd 0x06)).setStatus 1 2)) := by decide
theorem test_witness_FirstErrorStays :
    ((given (wr .status 0x02)).setStatus 1 2).err = 1
      ∧ (∀ e ∈ ((given (wr .status 0x02)).setStatus 1 2).requests,
          e ≠ .reset ∧ ∀ v : Word, e = .write 0x04 4 v → v.getLsbD 0 = false)
      ∧ nextIs (fun t => t.cause == 2) (run 2 ((given (wr .status 0x02)).setStatus 1 2)) := by
  refine ⟨by decide, ?_, by decide⟩
  intro e he
  obtain rfl : e = wr .status 0x02 := by simpa [given, State.reset] using he
  exact ⟨by decide, fun v hv => by cases hv; decide⟩
theorem test_witness_ErrBlocksNothing : Reg.value ≠ .status ∧ Reg.lane 7 ≠ .status ∧ Reg.lane 7 ≠ .cmd := by decide
/-- A command completes; a LANE write, and reset, move upper bits of lanes 3 and 31. -/
theorem test_witness_UpperLaneBits :
    nextIs (fun t => t.lanes == (withFill 0xFF 0).lanes) (exec (.unpackByte 3) (withFill 0xFF 0))
      ∧ nextIs (fun t => t.lanes[3] &&& 0xFE#8 != 0) (step (given (wr (.lane 0) 0xFF000000)))
      ∧ nextIs (fun t => t.lanes[31] &&& 0xFE#8 == 0) (step ((withFill 0xFF 0).present [.reset])) := by decide
/-- Each of the four ways VALUE changes. -/
theorem test_witness_ValueChanges :
    nextIs (fun t => t.value != 0) (step (given (wr .value 7)))
      ∧ nextIs (fun t => t.value != 0) (step ((withFill 1 0).present [cmd .unpackInt]))
      ∧ nextIs (fun t => t.value != 0) (step ((withFill 1 0).present [cmd (.unpackByte 3)]))
      ∧ nextIs (fun t => t.value != 7) (step ((withFill 0 7).present [.reset])) := by decide +kernel
theorem test_witness_NothingPresented : State.reset.requests = [] := by decide
theorem test_witness_StepTakesFirst :
    (given (rd .value)).requests = [rd .value] ∧ nextIs (fun t => t.replies == [.data 0]) (step (given (rd .value)))
      ∧ (given .reset).requests = [.reset] ∧ nextIs (fun t => t.replies == []) (step (given .reset)) := by decide
/-- Two states with one block, different answers behind them and different events ahead. -/
theorem test_witness_NoHiddenState :
    (given (cmd .packInt)).requests = cmd .packInt :: []
      ∧ (((given (cmd .packInt)).answer .done).present [.reset]).requests = cmd .packInt :: [.reset]
      ∧ (given (cmd .packInt)).block = (((given (cmd .packInt)).answer .done).present [.reset]).block
      ∧ nextIs (fun _ => true) (step (given (cmd .packInt))) := by decide
theorem test_witness_ImmediateRepeat :
    (State.reset.present [wr .cmd 0x05, wr .cmd 0x05]).requests = wr .cmd 0x05 :: wr .cmd 0x05 :: []
      ∧ nextIs (fun t => t.err == 1) (step (State.reset.present [wr .cmd 0x05, wr .cmd 0x05]))
      ∧ (given (.read 0x3C 4)).requests = .read 0x3C 4 :: []
      ∧ nextIs (fun _ => true) (step (given (.read 0x3C 4))) := by decide
theorem test_witness_EveryDefinedAccess :
    (State.reset.present (packByteSequence 3 (Vector.replicate 8 0xFF#8) 0x48)).WellDriven := by
  unfold State.WellDriven
  decide

end Sys2Proof.Tests
end

