-- ==== Sys2Proof/Proofs/Decoder.lean ====
section
/-! SUPPORT. When the decoder selects a command, in the fields of the word (spec/30_encoding.md R70 to R75), and that
`legalCmd` (R72) says the same. -/

namespace Sys2Proof

/-- OP 0, 3 and 4 select their command exactly when all reserved bits and GRP are 0. -/
@[simp] theorem decodePlainCmd_eq_command_iff (w : Word) (i j : Instr) :
    decodePlainCmd w i = .command j ↔ (rsv3Field w = 0 ∧ rsvField w = 0 ∧ grpField w = 0) ∧ i = j := by
  unfold decodePlainCmd
  split
  · simp only [reduceCtorEq, false_iff]
    tauto
  · simp only [Decoded.command.injEq]
    tauto

/-- OP 1 and 2 select their command exactly when all reserved bits are 0. -/
@[simp] theorem decodeGroupCmd_eq_command_iff (w : Word) (i : LaneGroup → Instr) (j : Instr) :
    decodeGroupCmd w i = .command j ↔ (rsv3Field w = 0 ∧ rsvField w = 0) ∧ i (groupOf w) = j := by
  unfold decodeGroupCmd
  split
  · simp only [reduceCtorEq, false_iff]
    tauto
  · simp only [Decoded.command.injEq]
    tauto

/-- The group of a word, put back into GRP. -/
@[simp] theorem ofFin_groupOf (w : Word) : BitVec.ofFin (groupOf w) = grpField w := rfl

/-- A word that selects a command has that command's fields. -/
theorem fields_of_decode_command (w : Word) (i : Instr) (h : decode w = .command i) :
    opField w = i.opBits ∧ rsv3Field w = 0 ∧ grpField w = i.grpBits ∧ rsvField w = 0 := by
  unfold decode at h
  split at h
  case h_1 hop | h_4 hop | h_5 hop =>
    obtain ⟨⟨h3, hr, hg⟩, rfl⟩ := (decodePlainCmd_eq_command_iff w _ i).1 h
    exact ⟨BitVec.eq_of_toNat_eq hop, h3, hg, hr⟩
  case h_2 hop | h_3 hop =>
    obtain ⟨⟨h3, hr⟩, rfl⟩ := (decodeGroupCmd_eq_command_iff w _ i).1 h
    exact ⟨BitVec.eq_of_toNat_eq hop, h3, rfl, hr⟩
  case h_6 => cases h

/-- A word that selects a command is that command's word (R71): no two words select one command. -/
theorem eq_encode_of_decode_command (w : Word) (i : Instr) (h : decode w = .command i) : w = encode i := by
  obtain ⟨hop, h3, hg, hr⟩ := fields_of_decode_command w i h
  exact word_ext_fields w (encode i) (by simp [hop]) (by simp [h3]) (by simp [hg]) (by simp [hr])

/-- R72's predicate, in the fields of the word. -/
theorem legalCmd_iff_fields (w : Word) :
    legalCmd w = true ↔ (opField w).toNat ≤ 4 ∧ rsv3Field w = 0 ∧ rsvField w = 0
      ∧ ((opField w).toNat = 1 ∨ (opField w).toNat = 2 ∨ grpField w = 0) := by
  simp only [legalCmd, opField, rsv3Field, grpField, rsvField, Bool.and_eq_true, Bool.or_eq_true, decide_eq_true_eq,
    beq_iff_eq, and_assoc, or_assoc]
  rfl

/-- A legal word selects a command. -/
theorem exists_decode_command_of_legalCmd (w : Word) (h : legalCmd w = true) : ∃ i, decode w = .command i := by
  obtain ⟨hop, h3, hr, hg⟩ := (legalCmd_iff_fields w).1 h
  unfold decode
  split
  case h_1 hn | h_4 hn | h_5 hn =>
    have hg0 : grpField w = 0 := by simpa [hn] using hg
    exact ⟨_, (decodePlainCmd_eq_command_iff w _ _).2 ⟨⟨h3, hr, hg0⟩, rfl⟩⟩
  case h_2 | h_3 => exact ⟨_, (decodeGroupCmd_eq_command_iff w _ _).2 ⟨⟨h3, hr⟩, rfl⟩⟩
  case h_6 h0 h1 h2 h3 h4 =>
    simp only [imp_false] at h0 h1 h2 h3 h4
    omega

/-- A discarded word is not legal. -/
theorem legalCmd_eq_false_of_discarded (w : Word) (cause : CmdErrorCause) (h : decode w = .discarded cause) :
    legalCmd w = false := by
  refine Bool.eq_false_iff.2 fun hl => ?_
  obtain ⟨i, hi⟩ := exists_decode_command_of_legalCmd w hl
  cases h.symm.trans hi

end Sys2Proof
end

