-- ==== Sys2Proof/Proofs/CommandFrames.lean ====
section
/-! SUPPORT. What a command leaves unchanged (spec/10_state.md R21, R22, R29). -/

namespace Sys2Proof.Machine

/-- No command writes a flag (R29). -/
theorem exec_keeps_flags (i : Instr) (s t : State) (h : exec i s = .next t) : t.err = s.err ∧ t.cause = s.cause := by
  obtain ⟨lanes, v, hx⟩ := exec_spec i s
  obtain rfl := Host.Outcome.next.inj (hx.symm.trans h)
  exact ⟨rfl, rfl⟩

/-- Substitution over carrier bytes keeps bits 7..1 of each (R97, R118). -/
@[simp] theorem getElem_packBits_and_upper {w : Nat} (v : BitVec w) (carrier : Vector Byte w) (i : Nat) (h : i < w) :
    (packBits v carrier)[i] &&& 0xFE#8 = carrier[i] &&& 0xFE#8 := by
  rw [getElem_packBits, substituteLsb_and_upper]

/-- Packing a byte into a group keeps bits 7..1 of every lane, inside the group and outside it. -/
theorem getElem_withGroupLanes_pack8_and_upper (g : LaneGroup) (b : Byte) (lanes : Lanes) (j : Nat) (h : j < 32) :
    (withGroupLanes g (pack8 b (groupLanes g lanes)) lanes)[j] &&& 0xFE#8 = lanes[j] &&& 0xFE#8 := by
  rw [getElem_withGroupLanes]
  split
  · have hj : 8 * g.val + j % 8 = j := by omega
    simp [pack8, hj]
  · rfl

/-- No command writes bits 7..1 of a lane (R21). -/
theorem exec_keeps_upper_lane_bits (i : Instr) (s t : State) (h : exec i s = .next t) (j : Fin 32) :
    t.lanes[j] &&& 0xFE#8 = s.lanes[j] &&& 0xFE#8 := by
  cases i with
  | nop =>
    obtain rfl := Host.Outcome.next.inj ((exec_nop s).symm.trans h)
    rfl
  | packByte g =>
    obtain rfl := Host.Outcome.next.inj ((exec_packByte g s).symm.trans h)
    rw [State.setGroup_lanes]
    exact getElem_withGroupLanes_pack8_and_upper g _ s.lanes j.val j.isLt
  | unpackByte g =>
    obtain rfl := Host.Outcome.next.inj ((exec_unpackByte g s).symm.trans h)
    rw [State.setValue_lanes]
  | packInt =>
    obtain rfl := Host.Outcome.next.inj ((exec_packInt s).symm.trans h)
    rw [State.setLanes_lanes]
    exact getElem_packBits_and_upper s.value s.lanes j.val j.isLt
  | unpackInt =>
    obtain rfl := Host.Outcome.next.inj ((exec_unpackInt s).symm.trans h)
    rw [State.setValue_lanes]

/-- NOP and the UNPACK commands write no lane (R21). -/
theorem exec_keeps_lanes (i : Instr) (s t : State) (h : exec i s = .next t)
    (hi : i = .nop ∨ i = .unpackInt ∨ ∃ g, i = .unpackByte g) : t.lanes = s.lanes := by
  obtain rfl | rfl | ⟨g, rfl⟩ := hi
  · obtain rfl := Host.Outcome.next.inj ((exec_nop s).symm.trans h)
    rfl
  · obtain rfl := Host.Outcome.next.inj ((exec_unpackInt s).symm.trans h)
    rw [State.setValue_lanes]
  · obtain rfl := Host.Outcome.next.inj ((exec_unpackByte g s).symm.trans h)
    rw [State.setValue_lanes]

/-- A command that changes VALUE is an UNPACK command (R22). -/
theorem unpack_of_exec_value_ne (i : Instr) (s t : State) (h : exec i s = .next t) (hv : t.value ≠ s.value) :
    i = .unpackInt ∨ ∃ g, i = .unpackByte g := by
  cases i with
  | unpackInt => exact .inl rfl
  | unpackByte g => exact .inr ⟨g, rfl⟩
  | nop =>
    obtain rfl := Host.Outcome.next.inj ((exec_nop s).symm.trans h)
    exact absurd rfl hv
  | packByte g =>
    obtain rfl := Host.Outcome.next.inj ((exec_packByte g s).symm.trans h)
    exact absurd (State.setGroup_value _ _ _) hv
  | packInt =>
    obtain rfl := Host.Outcome.next.inj ((exec_packInt s).symm.trans h)
    exact absurd (State.setLanes_value _ _) hv

end Sys2Proof.Machine
end

