-- ==== Sys2Proof/Proofs/StepEffect.lean ====
section
/-! SUPPORT. What a step can do to the block, said once and named after the host's event: the claims about L, V, ERR and
CAUSE over a step are case splits on `StepEffect`. -/

namespace Sys2Proof.Machine

/-- Taking an event from the sequence leaves the block alone. -/
@[simp] theorem State.withRequests_block (s : State) (rest : List HostEvent) :
    ({ s with requests := rest } : State).block = s.block := rfl

/-- The register map has each aligned offset at its register's offset (R41). -/
theorem regOffset_regAt (off : Offset) (h : off.val % 4 = 0) : regOffset (regAt off) = off := by
  revert off
  decide

/-- `StepEffect s u`: the block of `u` is what the first event of `s` makes of the block of `s`. -/
inductive StepEffect (s : State) : State → Prop where
  /-- Nothing presented, a read, or a write that is ignored. -/
  | unchanged : StepEffect s s
  /-- The reset signal (R170). -/
  | reset (rest : List HostEvent) (hreq : s.requests = .reset :: rest) : StepEffect s s.resetBlock
  /-- The CMD write of a command's word (R75). -/
  | command (i : Instr) (rest : List HostEvent) (u : State) (hreq : s.requests = cmd i :: rest)
      (hexec : exec i s = .next u) : StepEffect s u
  /-- The CMD write of a word that is discarded (R144). -/
  | discard (w : Word) (cause : CmdErrorCause) (rest : List HostEvent) (hreq : s.requests = wr .cmd w :: rest)
      (hdecode : decode w = .discarded cause) : StepEffect s (s.cmdError cause)
  /-- A STATUS write with bit 0 set (R26). -/
  | clear (v : Word) (rest : List HostEvent) (hreq : s.requests = wr .status v :: rest)
      (hbit : v.getLsbD 0 = true) : StepEffect s (s.setStatus 0 0)
  /-- A VALUE write (R22, R46). -/
  | value (v : Word) (rest : List HostEvent) (hreq : s.requests = wr .value v :: rest) : StepEffect s (s.setValue v)
  /-- A LANE write (R21, R46). -/
  | lane (k : Fin 8) (v : Word) (rest : List HostEvent) (hreq : s.requests = wr (.lane k) v :: rest) :
      StepEffect s (s.setLanes (withLaneWord k v s.lanes))

/-- The effect of a register write at the head of the host's sequence. -/
theorem StepEffect.of_regWrite (r : Reg) (v : Word) (rest : List HostEvent) (s u : State)
    (hreq : s.requests = wr r v :: rest) (h : regWrite r v s = .next u) : StepEffect s u := by
  cases r with
  | cmd =>
    rw [regWrite_cmd] at h
    obtain ⟨i, hdecode, hx⟩ | ⟨cause, hdecode, hx⟩ := execute_cases v s
    · obtain rfl := eq_encode_of_decode_command v i hdecode
      exact .command i rest u hreq (hx.symm.trans h)
    · obtain rfl := Host.Outcome.next.inj (hx.symm.trans h)
      exact .discard v cause rest hreq hdecode
  | status =>
    obtain rfl := Host.Outcome.next.inj ((regWrite_status v s).symm.trans h)
    obtain ⟨hbit, hw⟩ | ⟨-, hw⟩ := writeStatus_cases s v <;> rw [hw]
    · exact .clear v rest hreq hbit
    · exact .unchanged
  | value =>
    obtain rfl := Host.Outcome.next.inj ((regWrite_value v s).symm.trans h)
    exact .value v rest hreq
  | id =>
    obtain rfl := Host.Outcome.next.inj ((regWrite_id v s).symm.trans h)
    exact .unchanged
  | cfg =>
    obtain rfl := Host.Outcome.next.inj ((regWrite_cfg v s).symm.trans h)
    exact .unchanged
  | reserved j =>
    obtain rfl := Host.Outcome.next.inj ((regWrite_reserved j v s).symm.trans h)
    exact .unchanged
  | lane k =>
    obtain rfl := Host.Outcome.next.inj ((regWrite_lane k v s).symm.trans h)
    exact .lane k v rest hreq

/-- Every step that goes on has one of these effects on the block (R33). -/
theorem exists_stepEffect (s t : State) (h : step s = .next t) : ∃ u, StepEffect s u ∧ t.block = u.block := by
  obtain ⟨-, rfl⟩ | ⟨rest, hreq, rfl⟩ | ⟨off, n, rest, -, -, -, rfl⟩ | ⟨off, n, v, rest, x, hreq, rfl, hoff, hx, rfl⟩ :=
    step_cases s t h
  · exact ⟨t, .unchanged, rfl⟩
  · exact ⟨_, .reset rest hreq, by simp [State.block]⟩
  · exact ⟨s, .unchanged, by simp⟩
  · obtain ⟨u, hu, hb⟩ := regWrite_of_block (regAt off) v _ s x (by simp) hx
    have hwr : s.requests = wr (regAt off) v :: rest := by rw [hreq, wr, regOffset_regAt off hoff]
    exact ⟨u, .of_regWrite (regAt off) v rest s u hwr hu, by rw [State.answer_block, hb]⟩

end Sys2Proof.Machine
end

