-- ==== Sys2Proof/Proofs/StateClaims.lean ====
section
/-! The claims of spec/10_state.md: the invariant of STATUS, what changes each item of the block, the absence of hidden
state, the command a CMD write runs, and the values after reset. -/

namespace Sys2Proof.Machine

/-! ### STATUS -/

/-- The invariant speaks of the flags alone. -/
theorem State.StatusInv.of_flags_eq {s t : State} (hs : s.StatusInv) (he : t.err = s.err) (hc : t.cause = s.cause) :
    t.StatusInv := by
  rwa [State.StatusInv, he, hc]

/-- The codes of R145 are 1 and 2. -/
theorem causeCode_bounds (new : CmdErrorCause) : causeCode new ≠ 0 ∧ (causeCode new).toNat ≤ 2 := by
  cases new <;> decide

/-- Recording an error keeps the invariant: the code is a new one, or the one of an error already recorded (R144). -/
theorem State.StatusInv.cmdError {s : State} (hs : s.StatusInv) (new : CmdErrorCause) : (s.cmdError new).StatusInv := by
  obtain ⟨hiff, hle⟩ := hs
  suffices causeAfter s.err s.cause new ≠ 0 ∧ (causeAfter s.err s.cause new).toNat ≤ 2 by
    simpa [State.StatusInv] using this
  unfold causeAfter
  split
  next => exact causeCode_bounds new
  next herr => exact ⟨mt hiff.2 herr, hle⟩

/-- Every effect on the block keeps the invariant of STATUS. -/
theorem StepEffect.statusInv {s u : State} (h : StepEffect s u) (hs : s.StatusInv) : u.StatusInv := by
  cases h with
  | unchanged => exact hs
  | reset => simp [State.StatusInv]
  | command i rest _ _ hexec =>
    obtain ⟨he, hc⟩ := exec_keeps_flags i s u hexec
    exact hs.of_flags_eq he hc
  | discard w cause => exact hs.cmdError cause
  | clear => simp [State.StatusInv]
  | value v => exact hs.of_flags_eq (State.setValue_err s v) (State.setValue_cause s v)
  | lane => exact hs.of_flags_eq (State.setLanes_err s _) (State.setLanes_cause s _)

/-- Settles O30, from the effects a step can have on the block. -/
theorem stepKeepsStatusInvariant : Obligations.StepKeepsStatusInvariant := by
  intro s t hs h
  obtain ⟨u, hu, hb⟩ := exists_stepEffect s t h
  obtain ⟨-, -, he, hc⟩ := (State.block_eq_iff t u).1 hb
  exact (hu.statusInv hs).of_flags_eq he hc

/-- Settles O31: both flags are 0 after reset. -/
theorem statusInvariantHoldsAtReset : Obligations.StatusInvariantHoldsAtReset :=
  ⟨by decide, by decide⟩

/-- Settles O32, from the effects a step can have on the block. -/
theorem flagsChangeOnlyByDiscardClearOrReset : Obligations.FlagsChangeOnlyByDiscardClearOrReset := by
  intro s t h
  obtain ⟨u, hu, hb⟩ := exists_stepEffect s t h
  obtain ⟨-, -, he, hc⟩ := (State.block_eq_iff t u).1 hb
  rw [he, hc]
  cases hu with
  | unchanged => exact .inl ⟨rfl, rfl⟩
  | reset rest hreq => exact .inr (.inl ⟨rfl, rfl, rest, .inl hreq⟩)
  | command i rest _ _ hexec => exact .inl (exec_keeps_flags i s u hexec)
  | discard w cause rest hreq hdecode =>
    exact .inr (.inr ⟨rfl, fun herr => if_neg herr, w, rest, legalCmd_eq_false_of_discarded w cause hdecode, hreq⟩)
  | clear v rest hreq hbit => exact .inr (.inl ⟨rfl, rfl, rest, .inr ⟨v, hbit, hreq⟩⟩)
  | value => exact .inl ⟨rfl, rfl⟩
  | lane => exact .inl ⟨State.setLanes_err s _, State.setLanes_cause s _⟩

/-! ### L and V -/

/-- An effect that changes bits 7..1 of a lane is reset or a write to the lane's LANE word. -/
theorem StepEffect.reset_or_lane_of_upper_bits_ne {s u : State} (h : StepEffect s u) (j : Fin 32)
    (hne : u.lanes[j] &&& 0xFE#8 ≠ s.lanes[j] &&& 0xFE#8) :
    ∃ rest, s.requests = .reset :: rest ∨ ∃ v : Word, s.requests = wr (.lane ⟨j.val / 4, by omega⟩) v :: rest := by
  cases h with
  | unchanged => exact absurd rfl hne
  | reset rest hreq => exact ⟨rest, .inl hreq⟩
  | command i rest _ _ hexec => exact absurd (exec_keeps_upper_lane_bits i s u hexec j) hne
  | discard w cause => exact absurd (by rw [State.cmdError_lanes]) hne
  | clear => exact absurd (by rw [State.setStatus_lanes]) hne
  | value v => exact absurd (by rw [State.setValue_lanes]) hne
  | lane k v rest hreq =>
    by_cases hk : j.val / 4 = k.val
    · have hkj : k = ⟨j.val / 4, by omega⟩ := Fin.ext hk.symm
      exact ⟨rest, .inr ⟨v, hkj ▸ hreq⟩⟩
    · have hkeep : (withLaneWord k v s.lanes)[j.val] = s.lanes[j.val] := by rw [getElem_withLaneWord, if_neg hk]
      rw [State.setLanes_lanes] at hne
      exact absurd (congrArg (· &&& 0xFE#8) hkeep) hne

/-- Settles O35: the commands by their frames, a step by its effect on the block. -/
theorem upperLaneBitsMoveOnlyByLaneWriteOrReset : Obligations.UpperLaneBitsMoveOnlyByLaneWriteOrReset := by
  refine ⟨fun i s t h => ⟨exec_keeps_upper_lane_bits i s t h, exec_keeps_lanes i s t h⟩, fun s t j h hne => ?_⟩
  obtain ⟨u, hu, hb⟩ := exists_stepEffect s t h
  obtain ⟨hl, -, -, -⟩ := (State.block_eq_iff t u).1 hb
  exact hu.reset_or_lane_of_upper_bits_ne j (hl ▸ hne)

/-- Settles O36, from the effects a step can have on the block. -/
theorem valueChangesOnlyByWriteUnpackOrReset : Obligations.ValueChangesOnlyByWriteUnpackOrReset := by
  intro s t h hne
  obtain ⟨u, hu, hb⟩ := exists_stepEffect s t h
  obtain ⟨-, hv, -, -⟩ := (State.block_eq_iff t u).1 hb
  rw [hv] at hne ⊢
  cases hu with
  | unchanged => exact absurd rfl hne
  | reset rest hreq => exact ⟨rest, .inl hreq⟩
  | command i rest _ hreq hexec =>
    obtain rfl | ⟨g, rfl⟩ := unpack_of_exec_value_ne i s u hexec hne
    · exact ⟨rest, .inr (.inr (.inl hreq))⟩
    · exact ⟨rest, .inr (.inr (.inr ⟨g, hreq⟩))⟩
  | discard w cause => exact absurd (State.cmdError_value s cause) hne
  | clear => exact absurd (State.setStatus_value s 0 0) hne
  | value v rest hreq => exact ⟨rest, .inr (.inl ⟨v, hreq, State.setValue_value s v⟩)⟩
  | lane => exact absurd (State.setLanes_value s _) hne

/-! ### No hidden state -/

/-- Serving an event depends on the block alone, in what it does to the block and in what it answers (R31). -/
theorem serve_of_block (e : HostEvent) (s s' t : State) (hb : s.block = s'.block) (h : serve e s = .next t) :
    ∃ t' answers, serve e s' = .next t' ∧ t'.block = t.block
      ∧ t.replies = s.replies ++ answers ∧ t'.replies = s'.replies ++ answers := by
  cases e with
  | reset =>
    obtain rfl := Host.Outcome.next.inj h
    exact ⟨s'.resetBlock, [], rfl, by simp [State.block], by simp, by simp⟩
  | read off n =>
    by_cases hk : n = 4 ∧ off.val % 4 = 0
    · obtain rfl := Host.Outcome.next.inj ((serve_read off n s hk).symm.trans h)
      have hread : regRead (regAt off) s' = regRead (regAt off) s := regReadAs_of_block _ _ _ _ hb.symm
      exact ⟨_, [.data (regRead (regAt off) s)], serve_read off n s' hk, by simp [hb], by simp, by simp [hread]⟩
    · cases (serve_read_illegal off n s hk).symm.trans h
  | write off n v =>
    by_cases hk : n = 4 ∧ off.val % 4 = 0
    · obtain ⟨u, hu, -, hrep⟩ := regWrite_spec (regAt off) v s
      obtain ⟨u', hu', hb'⟩ := regWrite_of_block (regAt off) v s s' u hb hu
      obtain ⟨x, hx, -, hrep'⟩ := regWrite_spec (regAt off) v s'
      obtain rfl := Host.Outcome.next.inj (hx.symm.trans hu')
      rw [serve_write off n v s hk, hu, onNext_next] at h
      obtain rfl := Host.Outcome.next.inj h
      exact ⟨x.answer .done, [.done], by rw [serve_write off n v s' hk, hx, onNext_next], by simp [hb'],
        by simp [hrep], by simp [hrep']⟩
    · cases (serve_write_illegal off n v s hk).symm.trans h

/-- Settles O41: a step serves the first event, and serving depends on the block alone. -/
theorem noHiddenStateReachesTheHost : Obligations.NoHiddenStateReachesTheHost := by
  intro s s' t e rest rest' hreq hreq' hb h
  rw [step_of_cons s e rest hreq] at h
  rw [step_of_cons s' e rest' hreq']
  exact serve_of_block e { s with requests := rest } { s' with requests := rest' } t (by simpa using hb) h

/-! ### Commands and reset -/

/-- Settles O8: a CMD write is legal, and executing a word that decodes to a command is `exec` of it. -/
theorem stepRunsTheDecodedCommand : Obligations.StepRunsTheDecodedCommand := by
  intro s rest w i hdecode
  have hreg : regAt 0x00 = .cmd := rfl
  rw [step_of_cons _ _ rest rfl, serve_write 0x00 4 w _ ⟨rfl, rfl⟩, hreg, regWrite_cmd, execute, hdecode]

/-- Settles O38: each value is closed, and is evaluated. -/
theorem resetStateReadsAsTheSpecSays : Obligations.ResetStateReadsAsTheSpecSays :=
  ⟨by decide, rfl, rfl, rfl, rfl, by decide, rfl, rfl, by decide⟩

end Sys2Proof.Machine
end

