-- ==== Sys2Proof/Proofs/RegisterAccess.lean ====
section
/-! SUPPORT. A step whose event is an access to the register window (spec/20_memory.md R41 to R47, R50): what a legal
read and a legal write do, and when an access is a BusError. -/

namespace Sys2Proof.Machine

/-! ### The register map -/

/-- Every register stands at a 4-byte-aligned offset (R41). -/
theorem regOffset_aligned (r : Reg) : (regOffset r).val % 4 = 0 := by
  cases r with
  | reserved j => revert j; decide
  | lane k => revert k; decide
  | cmd | status | value | id | cfg => rfl

/-- The register map gives each register back at its offset (R41). -/
@[simp] theorem regAt_regOffset (r : Reg) : regAt (regOffset r) = r := by
  cases r with
  | reserved j => revert j; decide
  | lane k => exact regAt_laneOffset k _
  | cmd | status | value | id | cfg => rfl

/-! ### Legal accesses -/

/-- The host's `RD` of a register (R77) is a legal access: it is answered with the register's contents (R45). -/
theorem step_rd (s : State) (r : Reg) (rest : List HostEvent) (hreq : s.requests = rd r :: rest) :
    step s = .next (({ s with requests := rest } : State).answer (.data (regRead r s))) := by
  have hread : regRead r { s with requests := rest } = regRead r s :=
    regReadAs_of_block _ _ _ _ (State.withRequests_block s rest)
  rw [step_of_cons s _ rest hreq, rd, serve_read _ 4 _ ⟨rfl, regOffset_aligned r⟩, regAt_regOffset, hread]

/-- The host's `WR` of a register (R77) is a legal access: it does what the register's write does (R46), and completes. -/
theorem step_wr (s : State) (r : Reg) (v : Word) (rest : List HostEvent) (hreq : s.requests = wr r v :: rest) :
    step s = onNext (fun t => t.answer .done) (regWrite r v { s with requests := rest }) := by
  rw [step_of_cons s _ rest hreq, wr, serve_write _ 4 v _ ⟨rfl, regOffset_aligned r⟩, regAt_regOffset]

/-- The state after a LANE write, field by field. -/
theorem State.answer_setLanes (s : State) (rest : List HostEvent) (lanes : Lanes) (r : Reply) :
    (({ s with requests := rest } : State).setLanes lanes).answer r
      = { s with lanes := lanes, requests := rest, replies := s.replies ++ [r] } := rfl

/-- The `WR` of a LANE word. -/
theorem step_wr_lane (s : State) (k : Fin 8) (v : Word) (rest : List HostEvent)
    (hreq : s.requests = wr (.lane k) v :: rest) :
    step s = .next ((({ s with requests := rest } : State).setLanes (withLaneWord k v s.lanes)).answer .done) := by
  rw [step_wr s _ v rest hreq, regWrite_lane, onNext_next]

/-- Reading a LANE word (R45). -/
@[simp] theorem regRead_lane (k : Fin 8) (s : State) : regRead (.lane k) s = laneWordOf k s.lanes := rfl

/-- A LANE word's lane `4k+j` takes byte `j` of the word written (R46, R47). -/
theorem getElem_withLaneWord_same (k : Fin 8) (v : Word) (lanes : Lanes) (j : Nat) (h : j < 4) :
    (withLaneWord k v lanes)[4 * k.val + j] = v.extractLsb' (8 * j) 8 := by
  have hdiv : (4 * k.val + j) / 4 = k.val := by omega
  have hmod : (4 * k.val + j) % 4 = j := by omega
  rw [getElem_withLaneWord, if_pos hdiv, hmod]

/-- A STATUS write, by its bit 0 as a field of the word (R26). -/
theorem writeStatus_eq (s : State) (v : Word) :
    s.writeStatus v = if v.extractLsb' 0 1 = 1 then s.setStatus 0 0 else s := by
  rw [extractLsb'_one]
  obtain ⟨hbit, hw⟩ | ⟨hbit, hw⟩ := writeStatus_cases s v
  · rw [hw, hbit, if_pos (by decide)]
  · rw [hw, hbit, if_neg (by decide)]

/-! ### Illegal accesses -/

/-- Serving an event faults exactly on an access of another width than 4 or at an unaligned offset, and the fault names
that access (R44). -/
theorem serve_eq_fault_iff (e : HostEvent) (s : State) (f : Fault) :
    serve e s = .fault f ↔ ∃ (off : Offset) (n : Nat), (n ≠ 4 ∨ off.val % 4 ≠ 0)
      ∧ ((e = .read off n ∧ f = .busError off n .read) ∨ ∃ v, e = .write off n v ∧ f = .busError off n .write) := by
  constructor
  · intro h
    cases e with
    | reset => cases h
    | read off n =>
      by_cases hk : n = 4 ∧ off.val % 4 = 0
      · cases (serve_read off n s hk).symm.trans h
      · cases (serve_read_illegal off n s hk).symm.trans h
        exact ⟨off, n, Decidable.not_and_iff_or_not.1 hk, .inl ⟨rfl, rfl⟩⟩
    | write off n v =>
      by_cases hk : n = 4 ∧ off.val % 4 = 0
      · obtain ⟨u, hu, -, -⟩ := regWrite_spec (regAt off) v s
        rw [serve_write off n v s hk, hu] at h
        cases h
      · cases (serve_write_illegal off n v s hk).symm.trans h
        exact ⟨off, n, Decidable.not_and_iff_or_not.1 hk, .inr ⟨v, rfl, rfl⟩⟩
  · rintro ⟨off, n, hk, ⟨rfl, rfl⟩ | ⟨v, rfl, rfl⟩⟩
    · exact serve_read_illegal off n s (Decidable.not_and_iff_or_not.2 hk)
    · exact serve_write_illegal off n v s (Decidable.not_and_iff_or_not.2 hk)

/-- A step faults exactly when there is a first event and serving it faults. -/
theorem step_eq_fault_iff (s : State) (f : Fault) :
    step s = .fault f ↔ ∃ e rest, s.requests = e :: rest ∧ serve e { s with requests := rest } = .fault f := by
  cases hreq : s.requests with
  | nil => simp [step_of_nil s hreq]
  | cons e rest => simp [step_of_cons s e rest hreq]

end Sys2Proof.Machine
end

