-- ==== Sys2Proof/Proofs/Repeats.lean ====
section
/-! SUPPORT. Repeating what was just done changes nothing further (spec/20_memory.md R53): packing, a command, a discard,
a register write, a served access. -/

namespace Sys2Proof.Machine

/-! ### Packing -/

/-- A second pack over the same carrier bytes overwrites the first (R98, R118). -/
@[simp] theorem packBits_packBits {w : Nat} (v v' : BitVec w) (carrier : Vector Byte w) :
    packBits v (packBits v' carrier) = packBits v carrier := by
  ext1 i hi
  simp

/-- A second write of a group overwrites the first. -/
@[simp] theorem withGroupLanes_withGroupLanes (g : LaneGroup) (carrier carrier' : Vector Byte 8) (lanes : Lanes) :
    withGroupLanes g carrier (withGroupLanes g carrier' lanes) = withGroupLanes g carrier lanes := by
  ext1 j hj
  simp only [getElem_withGroupLanes]
  split <;> rfl

/-- A second write of a LANE word overwrites the first (R46). -/
@[simp] theorem withLaneWord_withLaneWord (k : Fin 8) (v v' : Word) (lanes : Lanes) :
    withLaneWord k v (withLaneWord k v' lanes) = withLaneWord k v lanes := by
  ext1 i hi
  simp only [getElem_withLaneWord]
  split <;> rfl

/-! ### Writes of what the state already holds -/

theorem State.setLanes_of_eq (s : State) (lanes : Lanes) (h : lanes = s.lanes) : s.setLanes lanes = s := by
  subst h
  rfl

theorem State.setValue_of_eq (s : State) (v : Word) (h : v = s.value) : s.setValue v = s := by
  subst h
  rfl

/-! ### Commands and register writes -/

/-- A command repeated at once changes nothing: a PACK writes the same bits, an UNPACK reads the same lanes (R53). -/
theorem exec_repeat (i : Instr) (s t : State) (h : exec i s = .next t) : exec i t = .next t := by
  cases i with
  | nop => exact exec_nop t
  | packByte g =>
    obtain rfl := Host.Outcome.next.inj ((exec_packByte g s).symm.trans h)
    rw [exec_packByte, State.setGroup, State.setLanes_of_eq]
    simp [pack8]
  | unpackByte g =>
    obtain rfl := Host.Outcome.next.inj ((exec_unpackByte g s).symm.trans h)
    rw [exec_unpackByte, State.setValue_of_eq]
    simp
  | packInt =>
    obtain rfl := Host.Outcome.next.inj ((exec_packInt s).symm.trans h)
    rw [exec_packInt, State.setLanes_of_eq]
    simp [pack32]
  | unpackInt =>
    obtain rfl := Host.Outcome.next.inj ((exec_unpackInt s).symm.trans h)
    rw [exec_unpackInt, State.setValue_of_eq]
    simp

/-- A second discard finds ERR set and changes nothing, whatever its cause (R144). -/
@[simp] theorem State.cmdError_cmdError (s : State) (c c' : CmdErrorCause) : (s.cmdError c).cmdError c' = s.cmdError c :=
  rfl

/-- A register write repeated at once changes nothing (R53). -/
theorem regWrite_repeat (r : Reg) (v : Word) (s t : State) (h : regWrite r v s = .next t) :
    regWrite r v t = .next t := by
  cases r with
  | cmd =>
    rw [regWrite_cmd] at h ⊢
    cases hd : decode v with
    | command i =>
      rw [execute, hd] at h ⊢
      exact exec_repeat i s t h
    | discarded cause =>
      rw [execute, hd] at h ⊢
      obtain rfl := Host.Outcome.next.inj h
      simp only [State.cmdError_cmdError]
  | status =>
    obtain rfl := Host.Outcome.next.inj ((regWrite_status v s).symm.trans h)
    rw [regWrite_status, writeStatus_eq, writeStatus_eq]
    split <;> rfl
  | value =>
    obtain rfl := Host.Outcome.next.inj ((regWrite_value v s).symm.trans h)
    rw [regWrite_value, State.setValue_of_eq _ v rfl]
  | id => exact regWrite_id v t
  | cfg => exact regWrite_cfg v t
  | reserved j => exact regWrite_reserved j v t
  | lane k =>
    obtain rfl := Host.Outcome.next.inj ((regWrite_lane k v s).symm.trans h)
    rw [regWrite_lane, State.setLanes_of_eq]
    simp

/-! ### Events -/

/-- A read leaves the block as it was (R45, R53). -/
theorem block_of_serve_read (off : Offset) (n : Nat) (s t : State) (h : serve (.read off n) s = .next t) :
    t.block = s.block := by
  by_cases hk : n = 4 ∧ off.val % 4 = 0
  · obtain rfl := Host.Outcome.next.inj ((serve_read off n s hk).symm.trans h)
    exact State.answer_block s _
  · cases (serve_read_illegal off n s hk).symm.trans h

/-- An event served again at once leaves the block as the first serving left it (R53). -/
theorem serve_repeat (e : HostEvent) (s t : State) (h : serve e s = .next t) :
    ∃ u, serve e t = .next u ∧ u.block = t.block := by
  cases e with
  | reset =>
    obtain rfl := Host.Outcome.next.inj h
    exact ⟨_, rfl, by simp [State.block]⟩
  | read off n =>
    by_cases hk : n = 4 ∧ off.val % 4 = 0
    · exact ⟨_, serve_read off n t hk, State.answer_block t _⟩
    · cases (serve_read_illegal off n s hk).symm.trans h
  | write off n v =>
    by_cases hk : n = 4 ∧ off.val % 4 = 0
    · obtain ⟨x, hx, -, -⟩ := regWrite_spec (regAt off) v s
      rw [serve_write off n v s hk, hx, onNext_next] at h
      obtain rfl := Host.Outcome.next.inj h
      obtain ⟨y, hy, hb⟩ :=
        regWrite_of_block (regAt off) v x (x.answer .done) x (by simp) (regWrite_repeat (regAt off) v s x hx)
      exact ⟨y.answer .done, by rw [serve_write off n v _ hk, hy, onNext_next], by simp [hb]⟩
    · cases (serve_write_illegal off n v s hk).symm.trans h

end Sys2Proof.Machine
end

