-- ==== Sys2Proof/Proofs/MemoryClaims.lean ====
section
/-! The claims of spec/20_memory.md: the register map, what reads and writes of the window do, BusError, the window at
P_BASE, the order of the host's events, and immediate repeats. -/

namespace Sys2Proof.Machine

/-! ### The register map and the window -/

/-- Settles O6, from the two inverse laws of the map. -/
theorem registerMapIsOneToOne : Obligations.RegisterMapIsOneToOne :=
  ⟨fun r => ⟨regOffset_aligned r, regAt_regOffset r⟩, regOffset_regAt⟩

/-- Settles O29: `addr = P_BASE + off` says block and offset of `addr` at once, as P_BASE is a multiple of 64. -/
theorem windowSeesOffsetsFromItsBase : Obligations.WindowSeesOffsetsFromItsBase := by
  intro pBase addr hbase
  have hmod : pBase % 64 = 0 := by simpa [Config.legalPBase] using hbase
  refine ⟨fun off => ?_, fun hin => ?_, fun hout s n v => ?_⟩
  · rw [windowOffset_eq_some_iff]
    omega
  · have haddr : addr = pBase + addr % 64 := by omega
    have hoff := (windowOffset_eq_some_iff pBase addr ⟨addr % 64, Nat.mod_lt _ (by decide)⟩).2 haddr
    exact ⟨_, haddr, fun s n v =>
      ⟨presentRead_of_offset s pBase addr n _ hoff, presentWrite_of_offset s pBase addr n v _ hoff⟩⟩
  · have hnone : windowOffset pBase addr = none := (windowOffset_eq_none_iff pBase addr).2 (by omega)
    exact ⟨by rw [State.presentRead, hnone], by rw [State.presentWrite, hnone]⟩

/-! ### Reads and writes -/

/-- Settles O24, from what `RD` answers, register by register. -/
theorem readsAnswerTheRegisters : Obligations.ReadsAnswerTheRegisters := by
  intro s rest
  have hread (r : Reg) := step_rd { s with requests := rd r :: rest } r rest rfl
  exact ⟨hread .cmd, hread .status, hread .value, hread .id, hread .cfg, rfl, hread (.reserved 0), hread (.reserved 1),
    hread (.reserved 2), fun k => hread (.lane k)⟩

/-- Settles O25, from what `WR` does, register by register. -/
theorem writesActOnTheRegisters : Obligations.WritesActOnTheRegisters := by
  intro s rest v
  have hwrite (r : Reg) := step_wr { s with requests := wr r v :: rest } r v rest rfl
  refine ⟨hwrite .cmd, ?_, hwrite .value, hwrite .id, hwrite .cfg, hwrite (.reserved 0), hwrite (.reserved 1),
    hwrite (.reserved 2), fun k => ⟨withLaneWord k v s.lanes, ?_, getElem_withLaneWord_same k v _ 0 (by decide),
      getElem_withLaneWord_same k v _ 1 (by decide), getElem_withLaneWord_same k v _ 2 (by decide),
      getElem_withLaneWord_same k v _ 3 (by decide), fun j hj => ?_⟩⟩
  · refine (hwrite .status).trans ?_
    rw [regWrite_status, onNext_next, writeStatus_eq]
    split <;> rfl
  · exact (step_wr_lane _ k v rest rfl).trans (congrArg _ (State.answer_setLanes s rest _ _))
  · exact (getElem_withLaneWord k v s.lanes j.val j.isLt).trans (if_neg hj)

/-- Settles O26: byte `j` of a LANE word is its lane `j`; the run is one `WR` and one `RD` of the register. -/
theorem laneWordsAreLittleEndian : Obligations.LaneWordsAreLittleEndian := by
  intro s k j v
  refine ⟨extract_laneWordOf k s.lanes j.val j.isLt, ?_⟩
  have hwr := step_wr_lane { s with requests := [wr (.lane k) v, rd (.lane k)] } k v [rd (.lane k)] rfl
  rw [run_succ_of_next 1 _ _ hwr, run_succ_of_next 0 _ _ (step_rd _ (.lane k) [] ?_)]
  refine ⟨_, run_zero _, ?_, ?_⟩
  · simpa using getElem_withLaneWord_same k v s.lanes j.val j.isLt
  · simp [laneWordOf_withLaneWord]
  · simp

/-- Settles O27: a step faults exactly as the serving of its first event does. -/
theorem busErrorExactlyOnUndefinedAccess : Obligations.BusErrorExactlyOnUndefinedAccess := by
  intro s f
  simp only [step_eq_fault_iff, serve_eq_fault_iff]
  constructor
  · rintro ⟨e, rest, hreq, off, n, hk, ⟨rfl, hf⟩ | ⟨v, rfl, hf⟩⟩
    · exact ⟨off, n, rest, hk, .inl ⟨hreq, hf⟩⟩
    · exact ⟨off, n, rest, hk, .inr ⟨v, hreq, hf⟩⟩
  · rintro ⟨off, n, rest, hk, ⟨hreq, hf⟩ | ⟨v, hreq, hf⟩⟩
    · exact ⟨_, rest, hreq, off, n, hk, .inl ⟨rfl, hf⟩⟩
    · exact ⟨_, rest, hreq, off, n, hk, .inr ⟨v, rfl, hf⟩⟩

/-! ### The order of the host's events -/

/-- Settles O39: an empty sequence has no event to serve (log entry 4). -/
theorem nothingPresentedNothingChanges : Obligations.NothingPresentedNothingChanges :=
  step_of_nil

/-- Settles O40, from the cases of a step that goes on: a reset keeps the answers and gives none (log entries 2 and 5). -/
theorem stepTakesExactlyTheFirstEvent : Obligations.StepTakesExactlyTheFirstEvent := by
  intro s t e rest hreq h
  obtain ⟨hnil, -⟩ | ⟨rest', hreq', rfl⟩ | ⟨off, n, rest', hreq', -, -, rfl⟩
    | ⟨off, n, v, rest', u, hreq', -, -, hu, rfl⟩ := step_cases s t h
  · cases hreq.symm.trans hnil
  · cases hreq.symm.trans hreq'
    exact ⟨rfl, [], by simp, rfl⟩
  · cases hreq.symm.trans hreq'
    exact ⟨rfl, [_], rfl, rfl⟩
  · cases hreq.symm.trans hreq'
    obtain ⟨x, hx, hq, hr⟩ := regWrite_spec (regAt off) v { s with requests := rest }
    obtain rfl := Host.Outcome.next.inj (hx.symm.trans hu)
    exact ⟨hq, [.done], by rw [State.answer_replies, hr], rfl⟩

/-! ### Immediate repeats -/

/-- Settles O42: the second step serves the same event again, with only the queues changed in between. -/
theorem immediateRepeatChangesNothingFurther : Obligations.ImmediateRepeatChangesNothingFurther := by
  refine ⟨fun s t e rest hreq h => ?_, fun s t off n rest hreq h => ?_⟩
  · obtain ⟨hreq', -⟩ := stepTakesExactlyTheFirstEvent s t e (e :: rest) hreq h
    rw [step_of_cons s e _ hreq] at h
    obtain ⟨u, hu, hb⟩ := serve_repeat e _ t h
    obtain ⟨u', -, hu', hb', -⟩ := serve_of_block e t { t with requests := rest } u (by simp) hu
    exact ⟨u', by rw [step_of_cons t e rest hreq', hu'], hb'.trans hb⟩
  · rw [step_of_cons s _ rest hreq] at h
    rw [block_of_serve_read off n _ t h, State.withRequests_block]

end Sys2Proof.Machine
end

