-- ==== Sys2Proof/Proofs/CommandWords.lean ====
section
/-! SUPPORT. The command words (spec/30_encoding.md R70 to R78): what the decoder answers to an encoded word, the cause
of every other word, and the words the rows of the opcode table accept. -/

namespace Sys2Proof

/-! ### Encoded words -/

/-- A command's word selects the command (R71). -/
@[simp] theorem decode_encode (i : Instr) : decode (encode i) = .command i := by
  cases i with
  | packByte g => revert g; decide
  | unpackByte g => revert g; decide
  | nop | packInt | unpackInt => rfl

/-- A command's word is legal (R72). -/
@[simp] theorem legalCmd_encode (i : Instr) : legalCmd (encode i) = true := by
  cases i with
  | nop => exact Laws.EncodesLegally.nop
  | packByte g => exact Laws.EncodesLegally.packByte g
  | unpackByte g => exact Laws.EncodesLegally.unpackByte g
  | packInt => exact Laws.EncodesLegally.packInt
  | unpackInt => exact Laws.EncodesLegally.unpackInt

/-- The legal words are the encoded commands (R71, R72). -/
theorem legalCmd_iff_exists_encode (w : Word) : legalCmd w = true ↔ ∃ i, w = encode i := by
  constructor
  · intro h
    obtain ⟨i, hi⟩ := exists_decode_command_of_legalCmd w h
    exact ⟨i, eq_encode_of_decode_command w i hi⟩
  · rintro ⟨i, rfl⟩
    exact legalCmd_encode i

/-- The commands in the order R71 lists their words. -/
def commands : List Instr :=
  [.nop] ++ (List.finRange 4).map .packByte ++ (List.finRange 4).map .unpackByte ++ [.packInt, .unpackInt]

/-- Every command is listed. -/
theorem mem_commands (i : Instr) : i ∈ commands := by
  cases i <;> simp [commands]

/-- R71's list is the list of the encoded commands. -/
theorem legalWords_eq_map_encode : legalWords = commands.map encode := by
  decide

/-- The words on R71's list are the encoded commands. -/
theorem mem_legalWords_iff_exists_encode (w : Word) : w ∈ legalWords ↔ ∃ i, w = encode i := by
  rw [legalWords_eq_map_encode, List.mem_map]
  exact ⟨fun ⟨i, _, hi⟩ => ⟨i, hi.symm⟩, fun ⟨i, hi⟩ => ⟨i, mem_commands i, hi.symm⟩⟩

/-- Each listed word selects the command listed beside it. -/
theorem map_decode_legalWords : legalWords.map decode = commands.map .command := by
  rw [legalWords_eq_map_encode, List.map_map]
  exact List.map_congr_left fun i _ => decode_encode i

/-! ### Discarded words -/

/-- OP 0, 3 and 4 are never ILLEGAL_OP. -/
theorem decodePlainCmd_ne_illegalOp (w : Word) (i : Instr) : decodePlainCmd w i ≠ .discarded .illegalOp := by
  unfold decodePlainCmd
  split <;> simp

/-- OP 1 and 2 are never ILLEGAL_OP. -/
theorem decodeGroupCmd_ne_illegalOp (w : Word) (i : LaneGroup → Instr) :
    decodeGroupCmd w i ≠ .discarded .illegalOp := by
  unfold decodeGroupCmd
  split <;> simp

/-- The words discarded as ILLEGAL_OP are those with OP 5, 6 or 7, whatever the other bits hold (R74 step 1). -/
theorem decode_eq_illegalOp_iff (w : Word) : decode w = .discarded .illegalOp ↔ 5 ≤ (opField w).toNat := by
  unfold decode
  split
  case h_1 hn | h_4 hn | h_5 hn => simp [decodePlainCmd_ne_illegalOp, hn]
  case h_2 hn | h_3 hn => simp [decodeGroupCmd_ne_illegalOp, hn]
  case h_6 h0 h1 h2 h3 h4 =>
    simp only [imp_false] at h0 h1 h2 h3 h4
    simp only [true_iff]
    omega

/-- The one cause of a word that selects no command (R74). -/
theorem decode_eq_discarded_of_no_command (w : Word) (h : ∀ i, decode w ≠ .command i) :
    decode w = .discarded (if 5 ≤ (opField w).toNat then .illegalOp else .reservedField) := by
  cases hd : decode w with
  | command i => exact absurd hd (h i)
  | discarded cause =>
    cases cause with
    | illegalOp => rw [if_pos ((decode_eq_illegalOp_iff w).1 hd)]
    | reservedField => rw [if_neg fun hop => by simp [(decode_eq_illegalOp_iff w).2 hop] at hd]

/-- A reserved bit discards every word (R74 step 2), unless OP does so first. -/
theorem decode_of_reserved_bit (w : Word) (hop : ¬ 5 ≤ (opField w).toNat) (h : rsv3Field w ≠ 0 ∨ rsvField w ≠ 0) :
    decode w = .discarded .reservedField := by
  rw [decode_eq_discarded_of_no_command w fun i hi => ?_, if_neg hop]
  obtain ⟨-, h3, -, hr⟩ := fields_of_decode_command w i hi
  exact h.elim (absurd h3) (absurd hr)

/-! ### The decoder's answer once no reserved bit is set -/

/-- Lane group 0 is GRP 0 (R73). -/
@[simp] theorem groupOf_eq_zero_iff (w : Word) : groupOf w = 0 ↔ grpField w = 0 := by
  rw [Fin.ext_iff, BitVec.toNat_eq]
  rfl

/-- OP 0, 3 and 4: GRP must be 0 (R74 step 3). -/
theorem decodePlainCmd_of_no_reserved_bit (w : Word) (i : Instr) (h : ¬ (rsv3Field w ≠ 0 ∨ rsvField w ≠ 0)) :
    decodePlainCmd w i = if groupOf w ≠ 0 then .discarded .reservedField else .command i := by
  simp only [decodePlainCmd, ← or_assoc, or_iff_right h, ne_eq, groupOf_eq_zero_iff]

/-- OP 1 and 2: any GRP is a lane group (R73). -/
theorem decodeGroupCmd_of_no_reserved_bit (w : Word) (i : LaneGroup → Instr)
    (h : ¬ (rsv3Field w ≠ 0 ∨ rsvField w ≠ 0)) : decodeGroupCmd w i = .command (i (groupOf w)) :=
  if_neg h

/-! ### The opcode table -/

/-- A row accepts a word when each masked field of the word is the pattern's (R78). -/
theorem OpcodeRow.fields_of_accepts (r : OpcodeRow) (w : Word) (h : r.accepts w = true) :
    opField w &&& opField r.mask = opField r.pattern ∧ rsv3Field w &&& rsv3Field r.mask = rsv3Field r.pattern
      ∧ grpField w &&& grpField r.mask = grpField r.pattern ∧ rsvField w &&& rsvField r.mask = rsvField r.pattern := by
  have hw : w &&& r.mask = r.pattern := by simpa [OpcodeRow.accepts] using h
  rw [← hw]
  simp only [opField, rsv3Field, grpField, rsvField, BitVec.extractLsb'_and, and_self]

/-- Every row reads OP and the reserved bits in full, and GRP too unless its OP is 1 or 2. -/
theorem masks_of_mem_opcodeTable : ∀ r ∈ opcodeTable,
    opField r.mask = BitVec.allOnes 3 ∧ rsv3Field r.mask = BitVec.allOnes 1 ∧ rsvField r.mask = BitVec.allOnes 26
      ∧ ((opField r.pattern).toNat = 1 ∨ (opField r.pattern).toNat = 2 ∨ grpField r.mask = BitVec.allOnes 2) := by
  decide

/-- A word a row of the table accepts has the OP and the reserved bits of the row's pattern, and its GRP too unless OP is
1 or 2. -/
theorem fields_of_mem_opcodeTable_of_accepts (r : OpcodeRow) (hr : r ∈ opcodeTable) (w : Word)
    (h : r.accepts w = true) :
    opField w = opField r.pattern ∧ rsv3Field w = rsv3Field r.pattern ∧ rsvField w = rsvField r.pattern
      ∧ ((opField w).toNat = 1 ∨ (opField w).toNat = 2 ∨ grpField w = grpField r.pattern) := by
  obtain ⟨hop, h3, hg, hrsv⟩ := r.fields_of_accepts w h
  obtain ⟨mop, m3, mrsv, mg⟩ := masks_of_mem_opcodeTable r hr
  rw [mop, BitVec.and_allOnes] at hop
  rw [m3, BitVec.and_allOnes] at h3
  rw [mrsv, BitVec.and_allOnes] at hrsv
  rw [← hop] at mg
  exact ⟨hop, h3, hrsv, mg.imp_right (Or.imp_right fun m => by rwa [m, BitVec.and_allOnes] at hg)⟩

/-- No word matches two rows (R78): the rows differ in OP. -/
theorem eq_of_accepts_of_accepts (r r' : OpcodeRow) (hr : r ∈ opcodeTable) (hr' : r' ∈ opcodeTable) (w : Word)
    (h : r.accepts w = true) (h' : r'.accepts w = true) : r' = r := by
  have hinj : ∀ r ∈ opcodeTable, ∀ r' ∈ opcodeTable, opField r'.pattern = opField r.pattern → r' = r := by decide
  obtain ⟨hop, -⟩ := fields_of_mem_opcodeTable_of_accepts r hr w h
  obtain ⟨hop', -⟩ := fields_of_mem_opcodeTable_of_accepts r' hr' w h'
  exact hinj r hr r' hr' (hop'.symm.trans hop)

/-- The rows accept legal words only (R72, R78). -/
theorem legalCmd_of_accepts (r : OpcodeRow) (hr : r ∈ opcodeTable) (w : Word) (h : r.accepts w = true) :
    legalCmd w = true := by
  have hpat : ∀ r ∈ opcodeTable, (opField r.pattern).toNat ≤ 4 ∧ rsv3Field r.pattern = 0 ∧ rsvField r.pattern = 0
      ∧ grpField r.pattern = 0 := by decide
  obtain ⟨pop, p3, prsv, pg⟩ := hpat r hr
  obtain ⟨hop, h3, hrsv, hg⟩ := fields_of_mem_opcodeTable_of_accepts r hr w h
  exact (legalCmd_iff_fields w).2 ⟨hop ▸ pop, h3.trans p3, hrsv.trans prsv, pg ▸ hg⟩

/-- The row with a command's mnemonic accepts the command's word (R78). -/
theorem exists_row_accepts_encode (i : Instr) :
    ∃ r ∈ opcodeTable, r.mnemonic = i.mnemonic ∧ r.accepts (encode i) = true := by
  cases i with
  | nop => exact Laws.EncodesInItsRow.nop
  | packByte g => exact Laws.EncodesInItsRow.packByte g
  | unpackByte g => exact Laws.EncodesInItsRow.unpackByte g
  | packInt => exact Laws.EncodesInItsRow.packInt
  | unpackInt => exact Laws.EncodesInItsRow.unpackInt

end Sys2Proof
end

