-- ==== Sys2Proof/Proofs/EncodingClaims.lean ====
section
/-! The claims of spec/30_encoding.md: the decoder against the encoder, `legal_cmd`, the list of legal words and the
opcode table; what `Execute` does with a command word, and what a discarded word changes. -/

namespace Sys2Proof

/-! ### Words and commands -/

/-- Settles O1: the decoder inverts the encoder, and a word that selects a command has the fields of its encoding. -/
theorem decodeSelectsExactlyTheEncodedCommand : Obligations.DecodeSelectsExactlyTheEncodedCommand := by
  refine fun w i => ⟨eq_encode_of_decode_command w i, ?_⟩
  rintro rfl
  exact decode_encode i

/-- Settles O2: both sides say that the word is an encoded command. -/
theorem legalWordsAreThoseThatDecode : Obligations.LegalWordsAreThoseThatDecode := by
  intro w
  simp only [legalCmd_iff_exists_encode, decodeSelectsExactlyTheEncodedCommand w]

/-- Settles O3: the list holds the encoded commands, which are the legal words. -/
theorem exactlyElevenWordsAreLegal : Obligations.ExactlyElevenWordsAreLegal := by
  refine ⟨rfl, by decide, fun w => ?_, map_decode_legalWords, fun w => (decode_eq_illegalOp_iff w).2,
    fun w hw => ⟨_, decode_eq_discarded_of_no_command w fun i hi => hw ?_⟩⟩
  · rw [legalCmd_iff_exists_encode, mem_legalWords_iff_exists_encode]
  · exact (mem_legalWords_iff_exists_encode w).2 ⟨i, eq_encode_of_decode_command w i hi⟩

/-- Settles O4: the command's own row accepts its word, no second row does, and what a row accepts is legal. -/
theorem oneTableRowAcceptsEachLegalWord : Obligations.OneTableRowAcceptsEachLegalWord := by
  refine fun w => ⟨fun i hi => ?_, fun cause hd r hr => Bool.eq_false_iff.2 fun ha => ?_⟩
  · obtain rfl := eq_encode_of_decode_command w i hi
    obtain ⟨r, hr, hm, ha⟩ := exists_row_accepts_encode i
    exact ⟨r, hr, ha, hm, fun r' hr' => eq_of_accepts_of_accepts r r' hr hr' _ ha⟩
  · cases (legalCmd_eq_false_of_discarded w cause hd).symm.trans (legalCmd_of_accepts r hr w ha)

/-- Settles O5: each word is closed, and is evaluated. -/
theorem wordsOfTheSpecDecodeAsListed : Obligations.WordsOfTheSpecDecodeAsListed := by
  unfold Obligations.WordsOfTheSpecDecodeAsListed
  decide

end Sys2Proof

namespace Sys2Proof.Machine

/-! ### Executing a command word -/

/-- A discarded word records its cause and does nothing else (R74). -/
theorem execute_of_discarded (w : Word) (s : State) (cause : CmdErrorCause) (h : decode w = .discarded cause) :
    execute w s = .next (s.cmdError cause) := by
  rw [execute, h]

/-- Executing OP 1 or 2 with no reserved bit set. -/
theorem execute_of_groupCmd (w : Word) (s : State) (i : LaneGroup → Instr) (hd : decode w = decodeGroupCmd w i)
    (h : ¬ (rsv3Field w ≠ 0 ∨ rsvField w ≠ 0)) : execute w s = exec (i (groupOf w)) s := by
  rw [execute, hd, decodeGroupCmd_of_no_reserved_bit w i h]

/-- Executing OP 0, 3 or 4 with no reserved bit set. -/
theorem execute_of_plainCmd (w : Word) (s : State) (i : Instr) (hd : decode w = decodePlainCmd w i)
    (h : ¬ (rsv3Field w ≠ 0 ∨ rsvField w ≠ 0)) :
    execute w s = if groupOf w ≠ 0 then .next (s.cmdError .reservedField) else exec i s := by
  rw [execute, hd, decodePlainCmd_of_no_reserved_bit w i h]
  by_cases hg : groupOf w ≠ 0
  · rw [if_pos hg, if_pos hg]
  · rw [if_neg hg, if_neg hg]

/-- Settles O7, branch by branch of R75's pseudocode. -/
theorem executeFollowsItsPseudocode : Obligations.ExecuteFollowsItsPseudocode := by
  intro w s op g cmdError
  have hop_eq : (opField w).toNat = op := rfl
  split
  next hop => exact execute_of_discarded w s .illegalOp ((decode_eq_illegalOp_iff w).2 hop)
  next hop =>
  split
  next hrsv => exact execute_of_discarded w s .reservedField (decode_of_reserved_bit w hop hrsv)
  next hrsv =>
  split
  next h0 => exact execute_of_plainCmd w s .nop (by simp only [decode, hop_eq, h0]) hrsv
  next h0 =>
  split
  next h1 => exact execute_of_groupCmd w s .packByte (by simp only [decode, hop_eq, h1]) hrsv
  next h1 =>
  split
  next h2 => exact execute_of_groupCmd w s .unpackByte (by simp only [decode, hop_eq, h2]) hrsv
  next h2 =>
  split
  next h3 => exact execute_of_plainCmd w s .packInt (by simp only [decode, hop_eq, h3]) hrsv
  next h3 =>
    have h4 : op = 4 := by omega
    exact execute_of_plainCmd w s .unpackInt (by simp only [decode, hop_eq, h4]) hrsv

/-- Settles O9: the write is served, and the word's cause is the one R74 gives. -/
theorem discardedWordIsRecordedInStatusOnly : Obligations.DiscardedWordIsRecordedInStatusOnly := by
  intro s rest w h
  have hnone : ∀ i, decode w ≠ .command i := fun i hi => by
    rw [eq_encode_of_decode_command w i hi, legalCmd_encode] at h
    cases h
  have hstep := step_wr { s with requests := wr .cmd w :: rest } .cmd w rest rfl
  rw [regWrite_cmd, execute_of_discarded _ _ _ (decode_eq_discarded_of_no_command w hnone), onNext_next] at hstep
  refine hstep.trans ?_
  unfold opField
  split <;> rfl

/-- Settles O10: the word placed is `w`, and it stands before the events already at the port (log entry 9). -/
theorem placedWordIsExecutedNext : Obligations.PlacedWordIsExecutedNext := by
  intro s w
  have hw : BitVec.ofNat 32 (w.toNat % 2 ^ 32) = w := by
    rw [Nat.mod_eq_of_lt w.isLt, BitVec.ofNat_toNat, BitVec.setWidth_eq]
  rw [State.withFetchWord, hw]
  exact step_wr _ .cmd w s.requests rfl

end Sys2Proof.Machine
end

