-- ==== Sys2Proof/Proofs/BitSubstitution.lean ====
section
/-! SUPPORT. Packing and unpacking as inverse bit permutations: the round trip, what unpacking reads, the bits of an
unpacked byte in VALUE (spec/40_byte_ops.md R90, R91; spec/41_int_ops.md R110, R111). -/

namespace Sys2Proof.Machine

/-! ### Carriers of any width -/

/-- Most significant bit first, unpacking inverts packing (R96, R116). -/
@[simp] theorem unpackBits_msbFirst_packBits {w : Nat} (v : BitVec w) (carrier : Vector Byte w) :
    unpackBits .msbFirst (packBits v carrier) = v := by
  refine BitVec.eq_of_getLsbD_eq fun k hk => ?_
  have hrev : w - 1 - (w - 1 - k) = k := by omega
  rw [getLsbD_unpackBits_msbFirst _ k hk, getElem_packBits, payloadBit_substituteLsb, hrev]

/-- Unpacking reads the payload bits and nothing else, under both orders (R99). -/
theorem unpackBits_congr {w : Nat} (order : BitOrder) (carrier carrier' : Vector Byte w)
    (h : ∀ i : Fin w, payloadBit carrier[i] = payloadBit carrier'[i]) :
    unpackBits order carrier = unpackBits order carrier' := by
  refine BitVec.eq_of_getLsbD_eq fun k hk => ?_
  cases order with
  | msbFirst =>
    rw [getLsbD_unpackBits_msbFirst _ k hk, getLsbD_unpackBits_msbFirst _ k hk]
    exact h ⟨w - 1 - k, by omega⟩
  | lsbFirst =>
    rw [getLsbD_unpackBits_lsbFirst _ k hk, getLsbD_unpackBits_lsbFirst _ k hk]
    exact h ⟨k, hk⟩

/-! ### One byte -/

/-- Least significant bit first, unpacking a packed byte reverses it (R96). -/
theorem unpack8_lsbFirst_pack8 (b : Byte) (carrier : Vector Byte 8) :
    unpack8 .lsbFirst (pack8 b carrier) = rev8 b := by
  refine BitVec.eq_of_getLsbD_eq fun k hk => ?_
  rw [unpack8, pack8, getLsbD_unpackBits_lsbFirst _ k hk, getElem_packBits, payloadBit_substituteLsb, getLsbD_rev8 b k hk]

/-- A byte extended to a word keeps its bits (R95 `zext_32`). -/
theorem extractLsb'_one_setWidth_byte (b : Byte) (k : Nat) (hk : k < 8) :
    (b.setWidth 32).extractLsb' k 1 = BitVec.ofBool (b.getLsbD k) := by
  rw [extractLsb'_one, BitVec.getLsbD_setWidth, decide_eq_true (by omega : k < 32), Bool.true_and]

/-- A byte extended to a word has zeros above. -/
theorem extractLsb'_upper_setWidth_byte (b : Byte) : (b.setWidth 32).extractLsb' 8 24 = 0 := by
  refine BitVec.eq_of_getLsbD_eq fun k _ => ?_
  simp

/-! ### PACK_BYTE on the lane file -/

/-- The lane file after PACK_BYTE G: a lane of the group takes its bit of `V[7:0]`, every other lane is kept (R92). -/
theorem getElem_lanes_packByte (g : LaneGroup) (s : State) (j : Nat) (hj : j < 32) :
    (s.setGroup g (pack8 (s.value.extractLsb' 0 8) (groupLanes g s.lanes))).lanes[j]
      = if j / 8 = g.val then substituteLsb s.lanes[j] (s.value.getLsbD (7 - j % 8)) else s.lanes[j] := by
  rw [State.setGroup_lanes, getElem_withGroupLanes]
  split
  next hg =>
    have hlane : 8 * g.val + j % 8 = j := by omega
    have hbit : 7 - j % 8 < 8 := by omega
    simp [pack8, hlane, hbit]
  next => rfl

/-- The group a byte was packed into unpacks to that byte, most significant bit first (R96). -/
theorem unpack8_groupLanes_setGroup_pack8 (g : LaneGroup) (s : State) (b : Byte) (carrier : Vector Byte 8) :
    unpack8 .msbFirst (groupLanes g (s.setGroup g (pack8 b carrier)).lanes) = b := by
  rw [State.setGroup_lanes, groupLanes_withGroupLanes, unpack8, pack8, unpackBits_msbFirst_packBits]

end Sys2Proof.Machine
end

