-- ==== Sys2Proof/Proofs/ByteClaims.lean ====
section
/-! The claims of spec/40_byte_ops.md: PACK_BYTE and UNPACK_BYTE complete with their results and frames, and the laws of
the family. -/

namespace Sys2Proof.Machine

/-! ### The two commands -/

/-- Settles O12: the result and the frame are read off the lane file after PACK_BYTE. -/
theorem packByteCompletesWithItsResult : Obligations.PackByteCompletesWithItsResult := by
  refine ⟨fun g s => ⟨_, exec_packByte g s, fun i => ?_, fun j hj => ?_, State.setGroup_value _ _ _,
    State.setGroup_err _ _ _, State.setGroup_cause _ _ _, State.setGroup_requests _ _ _, State.setGroup_replies _ _ _⟩,
    by decide, fun w hop hrsv => ?_⟩
  · have hdiv : (8 * g.val + i.val) / 8 = g.val := by omega
    have hmod : (8 * g.val + i.val) % 8 = i.val := by omega
    rw [getElem_lanes_packByte, if_pos hdiv, hmod, substituteLsb_getLsbD]
  · exact (getElem_lanes_packByte g s j.val j.isLt).trans (if_neg hj)
  · have hd := decode_of_reserved_bit w (by rw [opField, hop]; decide) hrsv
    exact ⟨hd, fun s => ⟨_, execute_of_discarded w s _ hd, State.cmdError_lanes s _⟩⟩

/-- Settles O13: bit `k` of the unpacked byte is one lane's payload bit, `7-k` or `k` by the order. -/
theorem unpackByteCompletesWithItsResult : Obligations.UnpackByteCompletesWithItsResult := by
  refine ⟨fun g s => ⟨_, exec_unpackByte g s, fun i => ?_, extractLsb'_upper_setWidth_byte _⟩,
    fun g s => ⟨_, rfl, fun i => ?_, extractLsb'_upper_setWidth_byte _⟩, by decide, fun w hop hrsv => ?_⟩
  · have hrev : 8 - 1 - (7 - i.val) = i.val := by omega
    rw [extractLsb'_one_setWidth_byte _ _ (by omega), extractLsb'_one, unpack8,
      getLsbD_unpackBits_msbFirst _ _ (by omega), getElem_groupLanes, payloadBit]
    simp only [hrev]
  · rw [extractLsb'_one_setWidth_byte _ _ i.isLt, extractLsb'_one, unpack8,
      getLsbD_unpackBits_lsbFirst _ _ i.isLt, getElem_groupLanes, payloadBit]
  · have hd := decode_of_reserved_bit w (by rw [opField, hop]; decide) hrsv
    exact ⟨hd, fun s => ⟨_, execute_of_discarded w s _ hd, State.cmdError_value s _⟩⟩

/-! ### The laws of the family -/

/-- Settles O16: at the level of the commands, UNPACK_BYTE reads back the group that PACK_BYTE wrote. -/
theorem byteRoundTrip : Obligations.ByteRoundTrip := by
  refine ⟨fun b carrier => ⟨unpackBits_msbFirst_packBits b carrier, unpack8_lsbFirst_pack8 b carrier⟩,
    fun b i => getLsbD_rev8 b i.val i.isLt, by decide, fun g s => ⟨_, exec_packByte g s, ?_⟩⟩
  rw [exec_unpackByte, unpack8_groupLanes_setGroup_pack8, State.setValue]

/-- Settles O17: outside its group PACK_BYTE keeps a lane, and inside it substitutes bit 0. -/
theorem bytePackKeepsUpperBits : Obligations.BytePackKeepsUpperBits := by
  refine ⟨fun b carrier i => getElem_packBits_and_upper b carrier i.val i.isLt, fun g s t ht j k hne => ?_⟩
  obtain rfl := Host.Outcome.next.inj ((exec_packByte g s).symm.trans ht)
  simp only [Fin.getElem_fin, getElem_lanes_packByte] at hne
  split at hne
  next hg => exact ⟨by_contra fun hk => hne ((getLsbD_substituteLsb _ _ k).trans (if_neg hk)), hg⟩
  next => exact absurd rfl hne

/-- Settles O18, from the same law of packing over any number of carrier bytes. -/
theorem bytePackOverwrites : Obligations.BytePackOverwrites :=
  fun b b' carrier => ⟨packBits_packBits b b' carrier, packBits_packBits b b carrier⟩

/-- Settles O19, from the same law of unpacking any number of carrier bytes. -/
theorem byteUnpackReadsOnlyBitZero : Obligations.ByteUnpackReadsOnlyBitZero :=
  fun order carrier carrier' h => unpackBits_congr order carrier carrier' h

end Sys2Proof.Machine
end

