-- ==== Sys2Proof/Proofs/PlainCommandWords.lean ====
section
/-! SUPPORT. Words with the OP of a command that takes no lane group (spec/30_encoding.md R71, R74): only the command's
own word is not discarded. -/

namespace Sys2Proof

/-- The commands whose word has no bit to choose: GRP must be 0 (R72). -/
def plainCommands : List Instr := [.nop, .packInt, .unpackInt]

/-- No other command has the OP of a command without a lane group (R71). -/
theorem eq_of_opBits_eq_of_plain (i j : Instr) (hi : i ∈ plainCommands) (h : j.opBits = i.opBits) : j = i := by
  have hall : ∀ i ∈ plainCommands, ∀ j ∈ commands, j.opBits = i.opBits → j = i := by decide
  exact hall i hi j (mem_commands j) h

/-- No command's OP is a reserved one (R71). -/
theorem opBits_lt_five (i : Instr) : i.opBits.toNat < 5 := by
  cases i <;> simp [Instr.opBits]

/-- A word with such a command's OP that is not the command's word is discarded with RESERVED_FIELD (R74 steps 2 and 3). -/
theorem decode_of_plain_opField_of_ne_encode (w : Word) (i : Instr) (hi : i ∈ plainCommands)
    (hop : opField w = i.opBits) (hw : w ≠ encode i) : decode w = .discarded .reservedField := by
  have hnone : ∀ j, decode w ≠ .command j := fun j hj => by
    obtain ⟨hopj, -, -, -⟩ := fields_of_decode_command w j hj
    obtain rfl := eq_of_opBits_eq_of_plain i j hi (hopj.symm.trans hop)
    exact hw (eq_encode_of_decode_command w j hj)
  rw [decode_eq_discarded_of_no_command w hnone, hop, if_neg (Nat.not_le.2 (opBits_lt_five i))]

end Sys2Proof
end

