-- ==== Sys2Proof/Proofs/IntBytes.lean ====
section
/-! SUPPORT. An integer over 32 lanes as four bytes over the four lane groups, most significant byte in group 0
(spec/41_int_ops.md R117), for packing and for unpacking. -/

namespace Sys2Proof.Machine

/-! ### A word and its bytes -/

/-- Byte `g` of four bytes in a row, counted from the most significant. -/
theorem extractLsb'_append_bytes (b : LaneGroup → Byte) (g : LaneGroup) :
    (b 0 ++ b 1 ++ b 2 ++ b 3).extractLsb' (24 - 8 * g.val) 8 = b g := by
  match g with
  | 0 =>
    exact (BitVec.extractLsb'_append_eq_of_le (start := 24) (by decide)).trans
      ((BitVec.extractLsb'_append_eq_of_le (start := 16) (by decide)).trans BitVec.extractLsb'_append_eq_left)
  | 1 =>
    exact (BitVec.extractLsb'_append_eq_of_le (start := 16) (by decide)).trans
      ((BitVec.extractLsb'_append_eq_of_le (start := 8) (by decide)).trans BitVec.extractLsb'_append_eq_right)
  | 2 =>
    exact (BitVec.extractLsb'_append_eq_of_le (start := 8) (by decide)).trans BitVec.extractLsb'_append_eq_right
  | 3 => exact BitVec.extractLsb'_append_eq_right

/-- A word is its four bytes in a row. -/
theorem append_extractLsb'_bytes (w : Word) :
    w.extractLsb' 24 8 ++ w.extractLsb' 16 8 ++ w.extractLsb' 8 8 ++ w.extractLsb' 0 8 = w := by
  rw [BitVec.extractLsb'_append_extractLsb'_eq_extractLsb' (show 24 = 16 + 8 from rfl),
    BitVec.extractLsb'_append_extractLsb'_eq_extractLsb' (show 16 = 8 + 8 from rfl),
    BitVec.extractLsb'_append_extractLsb']

/-- A word is four given bytes in a row exactly when each of them is the word's byte there. -/
theorem eq_append_bytes_iff (w : Word) (b : LaneGroup → Byte) :
    w = b 0 ++ b 1 ++ b 2 ++ b 3 ↔ ∀ g : LaneGroup, w.extractLsb' (24 - 8 * g.val) 8 = b g := by
  constructor
  · rintro rfl g
    exact extractLsb'_append_bytes b g
  · intro h
    rw [← h 0, ← h 1, ← h 2, ← h 3]
    exact (append_extractLsb'_bytes w).symm

/-! ### Unpacking -/

/-- Byte `g` of the unpacked integer is unpacked from group `g`, most significant bit first. -/
theorem extractLsb'_unpack32 (lanes : Lanes) (g : LaneGroup) :
    (unpack32 lanes).extractLsb' (24 - 8 * g.val) 8 = unpack8 .msbFirst (groupLanes g lanes) := by
  refine BitVec.eq_of_getLsbD_eq fun k hk => ?_
  have hlane : 32 - 1 - (24 - 8 * g.val + k) = 8 * g.val + (8 - 1 - k) := by omega
  rw [BitVec.getLsbD_extractLsb', decide_eq_true hk, Bool.true_and, unpack32, unpack8,
    getLsbD_unpackBits_msbFirst _ _ (by omega), getLsbD_unpackBits_msbFirst _ k hk, getElem_groupLanes]
  simp only [hlane]

/-- The byte one order unpacks is the reversal of the byte the other unpacks (R11, R91). -/
theorem rev8_unpack8_lsbFirst (carrier : Vector Byte 8) :
    rev8 (unpack8 .lsbFirst carrier) = unpack8 .msbFirst carrier := by
  refine BitVec.eq_of_getLsbD_eq fun k hk => ?_
  rw [getLsbD_rev8 _ k hk, unpack8, unpack8, getLsbD_unpackBits_lsbFirst _ _ (by omega),
    getLsbD_unpackBits_msbFirst _ k hk]

/-! ### Packing -/

/-- Group `g` of the packed integer is the integer's byte `g` packed into that group. -/
theorem groupLanes_pack32 (v : Word) (lanes : Lanes) (g : LaneGroup) :
    groupLanes g (pack32 v lanes) = pack8 (v.extractLsb' (24 - 8 * g.val) 8) (groupLanes g lanes) := by
  ext1 i hi
  have hbit : 32 - 1 - (8 * g.val + i) = 24 - 8 * g.val + (8 - 1 - i) := by omega
  have hlt : 8 - 1 - i < 8 := by omega
  rw [getElem_groupLanes, pack32, pack8, getElem_packBits, getElem_packBits, getElem_groupLanes, hbit,
    BitVec.getLsbD_extractLsb', decide_eq_true hlt, Bool.true_and]

/-- A lane file is determined by its four groups (R73). -/
theorem eq_of_groupLanes_eq (lanes lanes' : Lanes) (h : ∀ g, groupLanes g lanes = groupLanes g lanes') :
    lanes = lanes' := by
  ext1 j hj
  have hlane : 8 * (j / 8) + j % 8 = j := by omega
  have hmod : j % 8 < 8 := by omega
  have hgroup := congrArg (·[j % 8]) (h ⟨j / 8, by omega⟩)
  simpa only [getElem_groupLanes, hlane] using hgroup

/-- A write of one group leaves the other groups as they were (R92). -/
theorem groupLanes_withGroupLanes_of_ne (g g' : LaneGroup) (carrier : Vector Byte 8) (lanes : Lanes) (h : g' ≠ g) :
    groupLanes g' (withGroupLanes g carrier lanes) = groupLanes g' lanes := by
  ext1 i hi
  have hne : g'.val ≠ g.val := Fin.val_ne_of_ne h
  have hdiv : ¬ (8 * g'.val + i) / 8 = g.val := by omega
  rw [getElem_groupLanes, getElem_withGroupLanes, if_neg hdiv, getElem_groupLanes]

/-- The lane file with a byte packed into group `g`: what `PACKB g, b` makes of it (`run_packB`). -/
def packGroup (g : LaneGroup) (b : Byte) (lanes : Lanes) : Lanes :=
  withGroupLanes g (pack8 b (groupLanes g lanes)) lanes

/-- The groups after a byte was packed into one of them. -/
theorem groupLanes_packGroup (g g' : LaneGroup) (b : Byte) (lanes : Lanes) :
    groupLanes g' (packGroup g b lanes) = if g' = g then pack8 b (groupLanes g' lanes) else groupLanes g' lanes := by
  split
  next h =>
    subst h
    exact groupLanes_withGroupLanes _ _ lanes
  next h => exact groupLanes_withGroupLanes_of_ne g g' _ lanes h

/-- Packing the four bytes of an integer, each into its group, packs the integer. -/
theorem packGroup_bytes (v : Word) (lanes : Lanes) :
    packGroup 3 (v.extractLsb' 0 8) (packGroup 2 (v.extractLsb' 8 8)
      (packGroup 1 (v.extractLsb' 16 8) (packGroup 0 (v.extractLsb' 24 8) lanes))) = pack32 v lanes := by
  refine eq_of_groupLanes_eq _ _ fun g => ?_
  rw [groupLanes_pack32]
  match g with
  | 0 | 1 | 2 | 3 => simp [groupLanes_packGroup]

end Sys2Proof.Machine
end

