-- ==== Sys2Proof/Proofs/HostPacks.lean ====
section
/-! SUPPORT. The host's `PACKB` and `PACKI` (spec/30_encoding.md R77) as runs of two steps each. -/

namespace Sys2Proof.Machine

/-- A `WR VALUE` sets V, and completes. -/
theorem step_wr_value (s : State) (v : Word) (rest : List HostEvent) (hreq : s.requests = wr .value v :: rest) :
    step s = .next ((({ s with requests := rest } : State).setValue v).answer .done) := by
  rw [step_wr s .value v rest hreq, regWrite_value, onNext_next]

/-- A command is executed, and its CMD write completes. -/
theorem step_cmd (s : State) (i : Instr) (rest : List HostEvent) (hreq : s.requests = cmd i :: rest) :
    step s = onNext (fun t => t.answer .done) (exec i { s with requests := rest }) := by
  rw [step_wr s .cmd (encode i) rest hreq, regWrite_cmd, execute, decode_encode]

/-- A `WR VALUE` and a command behind it take two steps: the command finds the value in V. -/
theorem run_wr_value_cmd (k : Nat) (s u : State) (v : Word) (i : Instr) (rest : List HostEvent)
    (hreq : s.requests = wr .value v :: cmd i :: rest)
    (hexec : exec i ((({ s with requests := rest } : State).setValue v).answer .done) = .next u) :
    run (k + 2) s = run k (u.answer .done) := by
  rw [run_succ_of_next _ _ _ (step_wr_value s v _ hreq)]
  refine run_succ_of_next _ _ _ ((step_cmd _ i rest rfl).trans ?_)
  exact congrArg (onNext _) hexec

/-- `PACKI v` packs `v` over all lanes and leaves it in V. -/
theorem run_packI (k : Nat) (s : State) (v : Word) (rest : List HostEvent) (hreq : s.requests = packI v ++ rest) :
    ∃ t, run (k + 2) s = run k t ∧ t.lanes = pack32 v s.lanes ∧ t.value = v ∧ t.requests = rest := by
  refine ⟨_, run_wr_value_cmd k s _ v .packInt rest hreq (exec_packInt _), ?_, ?_, ?_⟩
  all_goals simp

/-- `PACKB g, b` packs `b` into the lanes of group `g` and leaves it in V. -/
theorem run_packB (k : Nat) (s : State) (g : LaneGroup) (b : Byte) (rest : List HostEvent)
    (hreq : s.requests = packB g b ++ rest) :
    ∃ t, run (k + 2) s = run k t ∧ t.lanes = packGroup g b s.lanes ∧ t.value = b.setWidth 32 ∧ t.requests = rest := by
  have hbyte : (b.setWidth 32).extractLsb' 0 8 = b := by
    rw [BitVec.extractLsb'_setWidth_of_le (by decide), BitVec.extractLsb'_eq_self]
  refine ⟨_, run_wr_value_cmd k s _ _ (.packByte g) rest hreq (exec_packByte g _), ?_, ?_, ?_⟩
  · simp [packGroup, hbyte]
  all_goals simp

end Sys2Proof.Machine
end

