-- ==== Sys2Proof/Proofs/IntClaims.lean ====
section
/-! The claims of spec/41_int_ops.md: PACK_INT and UNPACK_INT complete with their results and frames, and the laws of
the family. -/

namespace Sys2Proof.Machine

/-! ### The two commands -/

/-- Settles O14: the frame is that of a write of the lanes, and a word with OP 3 that is not 3 is no command's word. -/
theorem packIntCompletesWithItsResult : Obligations.PackIntCompletesWithItsResult := by
  refine ⟨fun s => ⟨_, exec_packInt s, fun i => ?_, State.setLanes_value _ _, State.setLanes_err _ _,
    State.setLanes_cause _ _, State.setLanes_requests _ _, State.setLanes_replies _ _⟩, by decide, fun w hop hw => ?_⟩
  · rw [State.setLanes_lanes, ← substituteLsb_getLsbD]
    exact getElem_packBits s.value s.lanes i.val i.isLt
  · have hd := decode_of_plain_opField_of_ne_encode w .packInt (by simp [plainCommands]) hop hw
    exact ⟨hd, fun s => ⟨_, execute_of_discarded w s _ hd, State.cmdError_lanes s _⟩⟩

/-- Settles O15: bit `31-i` of the unpacked integer is the payload bit of lane `i`. -/
theorem unpackIntCompletesWithItsResult : Obligations.UnpackIntCompletesWithItsResult := by
  refine ⟨fun s => ⟨_, exec_unpackInt s, fun i => ?_⟩, by decide, fun w hop hw => ?_⟩
  · have hrev : 32 - 1 - (31 - i.val) = i.val := by omega
    rw [extractLsb'_one, extractLsb'_one, unpack32, getLsbD_unpackBits_msbFirst _ _ (by omega), payloadBit]
    simp only [hrev, Fin.getElem_fin]
  · have hd := decode_of_plain_opField_of_ne_encode w .unpackInt (by simp [plainCommands]) hop hw
    exact ⟨hd, fun s => ⟨_, execute_of_discarded w s _ hd, State.cmdError_value s _⟩⟩

/-! ### The laws of the family -/

/-- Settles O20: what UNPACK_INT would write to V after PACK_INT is what V holds. -/
theorem intRoundTrip : Obligations.IntRoundTrip := by
  refine ⟨unpackBits_msbFirst_packBits, fun s => ⟨_, exec_packInt s, State.setLanes_value _ _, ?_⟩⟩
  rw [exec_unpackInt, State.setValue_of_eq]
  rw [State.setLanes_lanes, State.setLanes_value]
  exact unpackBits_msbFirst_packBits s.value s.lanes

/-- Settles O21: byte `g` of the integer belongs to group `g`, in packing, in the two runs and in unpacking; unpacking a
byte in the other order reverses it. -/
theorem intIsItsFourBytes : Obligations.IntIsItsFourBytes := by
  refine ⟨groupLanes_pack32, fun v s => ?_, fun lanes => ?_, fun lanes => ?_⟩
  · obtain ⟨t, hrun, hlanes, hvalue, -⟩ := run_packI 0 { s with requests := packI v } v [] rfl
    obtain ⟨u0, hrun0, hlanes0, -, hreq0⟩ := run_packB 6
      { s with requests := packB 0 (v.extractLsb' 24 8) ++ packB 1 (v.extractLsb' 16 8)
          ++ packB 2 (v.extractLsb' 8 8) ++ packB 3 (v.extractLsb' 0 8) } 0 (v.extractLsb' 24 8) _ rfl
    obtain ⟨u1, hrun1, hlanes1, -, hreq1⟩ := run_packB 4 u0 1 (v.extractLsb' 16 8) _ hreq0
    obtain ⟨u2, hrun2, hlanes2, -, hreq2⟩ := run_packB 2 u1 2 (v.extractLsb' 8 8) _ hreq1
    obtain ⟨u3, hrun3, hlanes3, hvalue3, -⟩ := run_packB 0 u2 3 (v.extractLsb' 0 8) [] hreq2
    refine ⟨t, u3, hrun, hrun0.trans (hrun1.trans (hrun2.trans hrun3)), ?_, hvalue, hvalue3⟩
    rw [hlanes, hlanes3, hlanes2, hlanes1, hlanes0, packGroup_bytes]
  · exact (eq_append_bytes_iff _ fun g => unpack8 .msbFirst (groupLanes g lanes)).2 (extractLsb'_unpack32 lanes)
  · refine (eq_append_bytes_iff _ fun g => unpack8 .lsbFirst (groupLanes g lanes)).trans (forall_congr' fun g => ?_)
    rw [extractLsb'_unpack32, rev8_unpack8_lsbFirst]

/-- Settles O22, from the laws of packing over any number of carrier bytes. -/
theorem intPackKeepsUpperBitsAndOverwrites : Obligations.IntPackKeepsUpperBitsAndOverwrites :=
  fun v v' carrier =>
    ⟨fun i => getElem_packBits_and_upper v carrier i.val i.isLt, packBits_packBits v v' carrier⟩

end Sys2Proof.Machine
end

