-- ==== Sys2Proof/Proofs/ControlClaims.lean ====
section
/-! The claim of spec/42_control_ops.md: NOP completes and changes nothing. -/

namespace Sys2Proof.Machine

/-- Settles O11: a word with OP 0 that is not 0 is no command's word, so its discard sets ERR. -/
theorem nopCompletesAndChangesNothing : Obligations.NopCompletesAndChangesNothing := by
  refine ⟨exec_nop, decode_encode .nop, fun w hop hw => ?_⟩
  have hd := decode_of_plain_opField_of_ne_encode w .nop (by simp [plainCommands]) hop hw
  exact ⟨hd, fun s => ⟨_, execute_of_discarded w s _ hd, State.cmdError_err s _⟩⟩

end Sys2Proof.Machine
end

