-- ==== Sys2Proof/Proofs/ExceptionClaims.lean ====
section
/-! The claims of spec/60_exceptions.md: a recorded error stays until it is cleared, a set ERR blocks nothing, and no step
is refused. -/

namespace Sys2Proof.Machine

/-! ### A recorded error stays -/

/-- A step takes the first of the host's events, if there is one (R52). -/
theorem requests_of_step (s t : State) (h : step s = .next t) : t.requests = s.requests.tail := by
  cases hreq : s.requests with
  | nil =>
    obtain rfl := Host.Outcome.next.inj ((step_of_nil s hreq).symm.trans h)
    exact hreq
  | cons e rest => exact (stepTakesExactlyTheFirstEvent s t e rest hreq h).1

/-- An event that clears no error: neither reset (R170) nor a STATUS write with bit 0 set (R149). -/
def HostEvent.ClearsNothing (e : HostEvent) : Prop :=
  e ≠ .reset ∧ ∀ v : Word, e = .write 0x04 4 v → v.getLsbD 0 = false

/-- The invariant behind R144's "first error wins": an error is recorded with this cause, and none of the events to come
clears it. -/
def State.HoldsError (cause : BitVec 4) (s : State) : Prop :=
  s.err = 1 ∧ s.cause = cause ∧ ∀ e ∈ s.requests, e.ClearsNothing

/-- With ERR set, a step whose event clears nothing keeps both flags: a discarded word finds ERR set (R144). -/
theorem step_keeps_error (s t : State) (herr : s.err = 1) (hclear : ∀ e ∈ s.requests, e.ClearsNothing)
    (h : step s = .next t) : t.err = 1 ∧ t.cause = s.cause := by
  obtain ⟨he, hc⟩ | ⟨-, -, rest, hreq | ⟨v, hbit, hreq⟩⟩ | ⟨he, hc, -⟩ := flagsChangeOnlyByDiscardClearOrReset s t h
  · exact ⟨he.trans herr, hc⟩
  · obtain ⟨hreset, -⟩ := hclear .reset (by simp [hreq])
    exact absurd rfl hreset
  · obtain ⟨-, hkeep⟩ := hclear (.write 0x04 4 v) (by simp [hreq])
    exact absurd ((hkeep v rfl).symm.trans hbit) (by decide)
  · exact ⟨he, hc (by simp [herr])⟩

/-- Every step keeps the invariant: the flags stay, and the events to come only get fewer. -/
theorem step_keeps_holdsError (cause : BitVec 4) (s t : State) (hs : s.HoldsError cause) (h : step s = .next t) :
    t.HoldsError cause := by
  obtain ⟨herr, hcause, hclear⟩ := hs
  obtain ⟨he, hc⟩ := step_keeps_error s t herr hclear h
  refine ⟨he, hc.trans hcause, fun e hmem => hclear e ?_⟩
  rw [requests_of_step s t h] at hmem
  exact List.mem_of_mem_tail hmem

/-- Settles O33: a recorded error that no event to come clears is an invariant of runs. -/
theorem firstErrorStaysUntilCleared : Obligations.FirstErrorStaysUntilCleared := by
  intro k s t herr hclear h
  obtain ⟨he, hc, -⟩ :=
    run_induction (State.HoldsError s.cause) (step_keeps_holdsError s.cause) k s t ⟨herr, rfl, hclear⟩ h
  exact ⟨he, hc⟩

/-! ### A set ERR blocks nothing -/

/-- A command is a function of L and V, so it commutes with any change of the flags (R147). -/
theorem exec_setStatus (i : Instr) (s : State) (e : BitVec 1) (code : BitVec 4) :
    exec i (s.setStatus e code) = onNext (fun t => t.setStatus e code) (exec i s) := by
  obtain ⟨lanes, v, hs, hflags⟩ := exec_of_lanes_value i s (s.setStatus e code) rfl rfl
  rw [hs, hflags]
  rfl

/-- Every register but STATUS reads the same under any flags (R45, R147). -/
theorem regRead_setStatus (r : Reg) (s : State) (e : BitVec 1) (code : BitVec 4) (hr : r ≠ .status) :
    regRead r (s.setStatus e code) = regRead r s := by
  cases r with
  | status => exact absurd rfl hr
  | lane k => rw [regRead_lane, regRead_lane, State.setStatus_lanes]
  | cmd | value | id | cfg | reserved => rfl

/-- Writes to the registers but CMD and STATUS commute with any change of the flags (R46, R147). -/
theorem regWrite_setStatus (r : Reg) (v : Word) (s : State) (e : BitVec 1) (code : BitVec 4) (hstatus : r ≠ .status)
    (hcmd : r ≠ .cmd) : regWrite r v (s.setStatus e code) = onNext (fun t => t.setStatus e code) (regWrite r v s) := by
  cases r with
  | cmd => exact absurd rfl hcmd
  | status => exact absurd rfl hstatus
  | value | id | cfg | reserved => rfl
  | lane k =>
    rw [regWrite_lane, regWrite_lane, onNext_next, State.setStatus_lanes]
    rfl

/-- Settles O34, from how commands, reads and writes commute with a change of the flags. -/
theorem errBlocksNothing : Obligations.ErrBlocksNothing :=
  fun s e code =>
    ⟨fun i => exec_setStatus i s e code, fun r => regRead_setStatus r s e code,
      fun r v => regWrite_setStatus r v s e code⟩

/-! ### No refusal -/

/-- Serving an event goes on or is a BusError (R140, R141). -/
theorem serve_ne_refused (e : HostEvent) (s : State) (r : Refusal) : serve e s ≠ .refused r := by
  intro h
  cases e with
  | reset => cases h
  | read off n =>
    by_cases hk : n = 4 ∧ off.val % 4 = 0
    · cases (serve_read off n s hk).symm.trans h
    · cases (serve_read_illegal off n s hk).symm.trans h
  | write off n v =>
    by_cases hk : n = 4 ∧ off.val % 4 = 0
    · obtain ⟨u, hu, -, -⟩ := regWrite_spec (regAt off) v s
      rw [serve_write off n v s hk, hu] at h
      cases h
    · cases (serve_write_illegal off n v s hk).symm.trans h

/-- Settles O28: a step serves the first event, or stays where it is. -/
theorem noStepIsRefused : Obligations.NoStepIsRefused := by
  intro s r h
  cases hreq : s.requests with
  | nil => cases (step_of_nil s hreq).symm.trans h
  | cons e rest => exact serve_ne_refused e _ r ((step_of_cons s e rest hreq).symm.trans h)

end Sys2Proof.Machine
end

