-- ==== Sys2Proof/Proofs/DrivenRuns.lean ====
section
/-! SUPPORT. Runs under a host that makes only defined accesses (spec/20_memory.md R60): they never stop, and serve the
host's events one a step. -/

namespace Sys2Proof.Machine

/-- R60's duty is on all events to come, so it stays met as they are served. -/
theorem step_keeps_wellDriven (s t : State) (hs : s.WellDriven) (h : step s = .next t) : t.WellDriven := by
  intro e he
  rw [requests_of_step s t h] at he
  exact hs e (List.mem_of_mem_tail he)

/-- Under a host that keeps R60's duty a step goes on, and the duty stays met. -/
theorem exists_step_of_wellDriven (s : State) (hs : s.WellDriven) : ∃ t, step s = .next t ∧ t.WellDriven := by
  obtain ⟨t, ht⟩ := step_next_of_defined s fun e rest hreq => hs e (by simp [hreq])
  exact ⟨t, ht, step_keeps_wellDriven s t hs ht⟩

/-- Under such a host a run of any length goes on; past the last event it stands still (log entry 4). -/
theorem exists_run_of_wellDriven (k : Nat) (s : State) (hs : s.WellDriven) : ∃ t, run k s = .next t := by
  induction k generalizing s with
  | zero => exact ⟨s, run_zero s⟩
  | succ k ih =>
    obtain ⟨u, hu, huw⟩ := exists_step_of_wellDriven s hs
    rw [run_succ_of_next k s u hu]
    exact ih u huw

/-- One more event is one more answer, if it is an access (R60). -/
theorem length_filter_isAccess_cons (e : HostEvent) (es : List HostEvent) :
    ((e :: es).filter HostEvent.isAccess).length
      = (if e.isAccess then 1 else 0) + (es.filter HostEvent.isAccess).length := by
  rw [← List.countP_eq_length_filter, ← List.countP_eq_length_filter, List.countP_cons, Nat.add_comm]

/-- Under such a host, as many steps as there are events serve them all, and answer each access once (R52, R60). -/
theorem run_serves_every_event (es : List HostEvent) (s : State) (hs : s.WellDriven) (hreq : s.requests = es) :
    ∃ t answers, run es.length s = .next t ∧ t.requests = [] ∧ t.replies = s.replies ++ answers
      ∧ answers.length = (es.filter HostEvent.isAccess).length := by
  induction es generalizing s with
  | nil => exact ⟨s, [], run_zero s, hreq, by simp, rfl⟩
  | cons e rest ih =>
    obtain ⟨u, hu, huw⟩ := exists_step_of_wellDriven s hs
    obtain ⟨hureq, first, hfirst, hfirstLen⟩ := stepTakesExactlyTheFirstEvent s u e rest hreq hu
    obtain ⟨t, later, hrun, htreq, hlater, hlaterLen⟩ := ih u huw hureq
    refine ⟨t, first ++ later, (run_succ_of_next rest.length s u hu).trans hrun, htreq, ?_, ?_⟩
    · rw [hlater, hfirst, List.append_assoc]
    · rw [List.length_append, hfirstLen, hlaterLen, length_filter_isAccess_cons]

end Sys2Proof.Machine
end

