-- ==== Sys2Proof/Proofs/ResetAndHazardClaims.lean ====
section
/-! The claims of spec/70_reset_and_hazards.md: packs of the two families over the same lanes, the service of every
defined access, and the values after reset. -/

namespace Sys2Proof.Machine

/-! ### Overlapping packs -/

/-- Packing an integer leaves no trace of a byte packed before (R175): each group is packed over again. -/
theorem pack32_packGroup (v : Word) (b : Byte) (g : LaneGroup) (lanes : Lanes) :
    pack32 v (packGroup g b lanes) = pack32 v lanes := by
  refine eq_of_groupLanes_eq _ _ fun g' => ?_
  rw [groupLanes_pack32, groupLanes_pack32, groupLanes_packGroup]
  split
  · exact packBits_packBits _ b (groupLanes g' lanes)
  · rfl

/-- Packing a byte into a group replaces the group's byte of the unpacked integer, and no other (R175). -/
theorem extractLsb'_unpack32_packGroup (b : Byte) (g g' : LaneGroup) (lanes : Lanes) :
    (unpack32 (packGroup g b lanes)).extractLsb' (24 - 8 * g'.val) 8
      = if g' = g then b else (unpack32 lanes).extractLsb' (24 - 8 * g'.val) 8 := by
  rw [extractLsb'_unpack32, extractLsb'_unpack32, groupLanes_packGroup]
  split
  · exact unpackBits_msbFirst_packBits b (groupLanes g' lanes)
  · rfl

/-- Settles O23: a byte is packed into the lanes of one group, and the packed integer unpacks to itself. -/
theorem overlappingPacksOverwrite : Obligations.OverlappingPacksOverwrite := by
  refine ⟨pack32_packGroup, fun v b g g' lanes => (extractLsb'_unpack32_packGroup b g g' (pack32 v lanes)).trans ?_⟩
  rw [unpack32, pack32, unpackBits_msbFirst_packBits]

/-! ### Every defined access is served -/

/-- Settles O43, by induction on the steps for the first part and on the host's events for the second. -/
theorem everyDefinedAccessIsServed : Obligations.EveryDefinedAccessIsServed :=
  fun s hs => ⟨fun k => exists_run_of_wellDriven k s hs, run_serves_every_event s.requests s hs rfl⟩

/-! ### Reset -/

/-- Settles O37: the step serves the reset, and the host's two queues are the model's own, which reset keeps (log
entries 2 and 5). -/
theorem resetPutsEveryRegisterAtItsValue : Obligations.ResetPutsEveryRegisterAtItsValue := by
  intro s rest
  refine ⟨({ s with requests := rest } : State).resetBlock, step_of_cons _ .reset rest rfl, fun j => ?_,
    State.resetBlock_value _, State.resetBlock_err _, State.resetBlock_cause _, State.resetBlock_requests _,
    State.resetBlock_replies _⟩
  rw [State.resetBlock_lanes]
  exact Vector.getElem_replicate j.isLt

end Sys2Proof.Machine
end
